-- ==== Sys2Proof/Word.lean ====
section
/-! DEFINITION. The plain types: register words, digits and digit arrays (spec/00_scope.md R9, R13, R16). -/

namespace Sys2Proof

/-- A register of the register block: 32 bits (spec/10_state.md R30). -/
abbrev Word := BitVec 32

/-- A digit, which is one byte of digit memory (spec/00_scope.md R9, spec/20_memory.md R61). -/
abbrev Byte := BitVec 8

/-- A digit array: digit 0, the most significant, is the head of the list (spec/00_scope.md R13).
Its length is the list's length: it carries no header or terminator (spec/10_state.md R44). -/
abbrev Digits := List Byte

end Sys2Proof
end

