-- ==== Sys2Proof/Config.lean ====
section
/-! DEFINITION. What an implementation fixes (spec/00_scope.md R10) and the free values (spec/00_scope.md R16 `draw`). -/

namespace Sys2Proof

/-- The three parameters of spec/00_scope.md R10. They never change (spec/10_state.md R30). The machine
carries them in `State.par`, so that a statement about every state holds for every value of them
(log entry 1). Their bounds are `Params.wf` in WellFormed.lean. -/
structure Params where
  /-- `MAXLEN`: the largest length accepted for a source operand. -/
  maxLen : Nat
  /-- `DM_SIZE`: how many bytes digit memory has. -/
  dmSize : Nat
  /-- `REG_BASE`: where the platform places the register block on a byte-addressed bus. -/
  regBase : Nat
  deriving DecidableEq, Repr

/-- DESIGN CHOICE (log entry 1): the values `State.reset` has, those of the spec's own vectors
(spec/95_test_vectors.md: "`MAXLEN = 16`, `DM_SIZE = 256`"). -/
def Config.resetParams : Params := { maxLen := 16, dmSize := 256, regBase := 0 }

/-- The free values: `Config.draw k i` is digit `i` of the `k`-th draw (spec/00_scope.md R16, "a value the
rules do not fix"). It has no body, so nothing can be proved of any of them (log entry 4). -/
opaque Config.draw : Nat → Nat → Byte

end Sys2Proof
end

