-- ==== Sys2Proof/Syntax.lean ====
section
/-! DEFINITION. The eight commands: one constructor per row of spec/opcode_table.json. -/

namespace Sys2Proof

/-- A command (spec/00_scope.md R2, spec/30_encoding.md R94). No constructor has an argument: a command word
carries no register number, immediate or address (R91). -/
inductive Instr where
  /-- `ADD`, addition, same-length form (R150). -/
  | add
  /-- `ADDX`, addition, differing-length form (R151). -/
  | addx
  /-- `SUB`, subtraction, same-length form (R161). -/
  | sub
  /-- `SUBX`, subtraction, differing-length form (R162). -/
  | subx
  /-- `MUL`, schoolbook multiplication (R170). -/
  | mul
  /-- `DIV`, long division (R180). -/
  | div
  /-- `SHIB`, `shift_into_base256` (R200). -/
  | shib
  /-- `SHID`, `shift_into_decimal` (R201). -/
  | shid
  deriving DecidableEq, Repr

end Sys2Proof
end

