-- ==== Sys2Proof/WellFormed.lean ====
section
/-! DEFINITION. Well-formedness of commands, command words and parameters, as checks that run. -/

namespace Sys2Proof

/-- Every command is well formed: it has no operand field that could be out of range
(spec/30_encoding.md R91). One arm per constructor, so that a new one cannot slip past. -/
def Instr.wf : Instr → Bool
  | .add => true
  | .addx => true
  | .sub => true
  | .subx => true
  | .mul => true
  | .div => true
  | .shib => true
  | .shid => true

/-- A command word is legal when `RSVD` (31:8) is 0 and `OPCODE` (7:0) is one of 0x01 .. 0x08
(spec/30_encoding.md R90, R95). -/
def cmdWordWf (w : Word) : Bool :=
  w.extractLsb' 8 24 == 0#24 && decide (1 ≤ (w.extractLsb' 0 8).toNat) && decide ((w.extractLsb' 0 8).toNat ≤ 8)

/-- The constraints of spec/00_scope.md R10 on the parameters. `REG_BASE` has none. -/
def Params.wf (p : Params) : Bool :=
  decide (1 ≤ p.maxLen) && decide (p.maxLen ≤ 2 ^ 32 - 1) && decide (1 ≤ p.dmSize) && decide (p.dmSize ≤ 2 ^ 32)

end Sys2Proof
end

