-- ==== Sys2Proof/Decode.lean ====
section
/-! DEFINITION. Command words: the decoder, total on every 32-bit word, and the encoder (spec/30_encoding.md). -/

namespace Sys2Proof

/-- Why a word is no command (spec/30_encoding.md R95). Both are reported as `ILLEGAL_CMD`. -/
inductive DecodeReject where
  /-- `RSVD` (31:8) is not 0, whatever `OPCODE` is. -/
  | reservedBitsSet
  /-- `RSVD` is 0 and `OPCODE` is 0x00 or in 0x09 .. 0xFF. -/
  | opcodeUnassigned
  deriving DecidableEq, Repr

/-- Field `OPCODE`, bits 7:0 (R90). -/
def opcodeField (w : Word) : Byte := w.extractLsb' 0 8

/-- Field `RSVD`, bits 31:8 (R90). -/
def rsvdField (w : Word) : BitVec 24 := w.extractLsb' 8 24

/-- The opcode map of spec/30_encoding.md R94. -/
def decodeOpcode (op : Byte) : Except DecodeReject Instr :=
  match op.toNat with
  | 1 => .ok .add
  | 2 => .ok .addx
  | 3 => .ok .sub
  | 4 => .ok .subx
  | 5 => .ok .mul
  | 6 => .ok .div
  | 7 => .ok .shib
  | 8 => .ok .shid
  | _ => .error .opcodeUnassigned

/-- The decoder (R92, R95, R237): a word with a reserved bit set is rejected whatever its opcode. -/
def decode (w : Word) : Except DecodeReject Instr :=
  if rsvdField w = 0#24 then decodeOpcode (opcodeField w) else .error .reservedBitsSet

/-- The `OPCODE` byte of a command (R94). -/
def opcodeOf : Instr → Byte
  | .add => 0x01#8
  | .addx => 0x02#8
  | .sub => 0x03#8
  | .subx => 0x04#8
  | .mul => 0x05#8
  | .div => 0x06#8
  | .shib => 0x07#8
  | .shid => 0x08#8

/-- The encoder: `RSVD` 0 above the `OPCODE` byte (R90, R94). -/
def encode (i : Instr) : Word := (0#24) ++ (opcodeOf i)

/-- The word of a table row's bits: bit 0 is the least significant bit of `CMD`. The bits above `nbits` are 0,
and a command is always one 32-bit word (R90; log entry 19). -/
def tableWord (nbits w : Nat) : Word := BitVec.ofNat 32 (w % 2 ^ nbits)

/-- What the decoder reads from a table row's bits. -/
def decodeTableWord (nbits w : Nat) : Option Instr :=
  match decode (tableWord nbits w) with
  | .ok i => some i
  | .error _ => none

end Sys2Proof
end

