-- ==== Sys2Proof/Machine/Digits.lean ====
section
/-! DEFINITION. Digit arrays and the numbers they stand for (spec/00_scope.md R13). -/

namespace Sys2Proof.Machine

/-- The value of an array in radix `R`: `sum over i of a[i] * R^(n-1-i)`. -/
def valIn (R : Nat) : Digits → Nat
  | [] => 0
  | d :: ds => d.toNat * R ^ ds.length + valIn R ds

/-- The array of `n` digits in radix `R` that stands for `v mod R^n`. -/
def arrIn (R : Nat) (v : Nat) : Nat → Digits
  | 0 => []
  | n + 1 => BitVec.ofNat 8 (v / R ^ n % R) :: arrIn R v n

/-- `val(a, n)` of R13: the value of a base-256 digit array. -/
abbrev val (a : Digits) : Nat := valIn 256 a

/-- `arr(v, n)` of R13. For `v >= 256^n`, where R13 does not define it, this is `arr(v mod 256^n, n)`. -/
abbrev arr (v n : Nat) : Digits := arrIn 256 v n

/-- `dec(x)` of spec/46_radix.md R200: the value of a decimal digit array. -/
abbrev dec (a : Digits) : Nat := valIn 10 a

/-- `zeros(n)` of R13. -/
def zeros (n : Nat) : Digits := List.replicate n 0#8

/-- `b` with zero digits above it up to length `n`: the array whose digit `i` is `b[i - (n - nb)]`, or 0 where
`b` has no counterpart (spec/42_add.md R151, spec/43_sub.md R162, spec/20_memory.md R68). -/
def padTo (n : Nat) (b : Digits) : Digits := zeros (n - b.length) ++ b

end Sys2Proof.Machine
end

