-- ==== Sys2Proof/Machine/State.lean ====
section
/-! DEFINITION. The machine's state as plain data, its faults and refusals, and the state after reset. -/

namespace Sys2Proof.Machine

/-- The outcome codes of spec/60_exceptions.md R230. -/
inductive Err where
  /-- 0: none of the others. -/
  | ok
  /-- 1: raised by `DIV`, an all-zero divisor (R231). -/
  | divByZero
  /-- 2: raised by `DIV`, the quotient's integer part does not fit (R232). -/
  | overflow
  /-- 3: raised by every legal command, operand validation failed (R233). -/
  | badOperand
  /-- 4: raised by an illegal command word (R234). -/
  | illegalCmd
  deriving DecidableEq, Repr

/-- Digit memory as the list of its bytes written since reset, by address (log entries 2 and 3). -/
abbrev Memory := List Host.Cell

/-- The canonical form of a memory: addresses strictly rising. A byte that is not listed has not been
written since reset and has no value of its own (log entry 3). -/
abbrev Memory.wf (m : Memory) : Prop := (m.map Prod.fst).Pairwise (· < ·)

/-- One move of an agent other than the idle engine (spec/00_scope.md R18, spec/30_encoding.md R98). -/
inductive Move where
  /-- The host writes a register. A write to `CMD` runs the command from start to completion in this one
  move (R92, R18). -/
  | wr (reg : Nat) (value : Word)
  /-- The host reads a register. -/
  | rd (reg : Nat)
  /-- The host writes one byte of digit memory. -/
  | st (addr : Nat) (digit : Byte)
  /-- The host reads one byte of digit memory. -/
  | ld (addr : Nat)
  /-- The host writes `CMD`, and the engine does not complete the command in this move: `BUSY` stays 1
  until a later `cmdFinish` (R47, R266; log entry 7). -/
  | cmdStart (value : Word)
  /-- The engine completes the command in flight (R93). -/
  | cmdFinish
  /-- The host repeats a read of `STATUS` until bit 31 reads 0 (spec/30_encoding.md R99). If a command is in flight,
  `polls` reads still find it so before the engine completes it: the spec gives a command no duration, so every
  number is possible (R275; log entry 24). -/
  | wait (polls : Nat)
  /-- The platform asserts the reset input (spec/70_reset_and_hazards.md R260). -/
  | reset
  deriving DecidableEq, Repr

/-- What a host read returned (the model's own record, log entry 10). -/
inductive BusRead where
  /-- A register's value. -/
  | reg (reg : Nat) (value : Word)
  /-- A byte of digit memory. -/
  | byte (addr : Nat) (digit : Byte)
  deriving DecidableEq, Repr

/-- The state of one DAU. The first ten fields after `par` are the spec's whole architectural state
(spec/10_state.md R30); `par` holds the parameters, which never change; the last four are the model's own. -/
structure State where
  /-- `MAXLEN`, `DM_SIZE`, `REG_BASE` (spec/00_scope.md R10; log entry 1). -/
  par : Params
  /-- Register 0, `CMD` (R38). -/
  cmd : Word
  /-- Register 1, `STATUS` (R39): `ERR` 3:0, `CO` 4, `BO` 5, `BUSY` 31. -/
  status : Word
  /-- Register 2, `RET` (R40). -/
  ret : Word
  /-- Register 3, `A_BASE` (R32). -/
  aBase : Word
  /-- Register 4, `A_LEN` (R32). -/
  aLen : Word
  /-- Register 5, `B_BASE` (R32). -/
  bBase : Word
  /-- Register 6, `B_LEN` (R32). -/
  bLen : Word
  /-- Register 7, `R_BASE` (R32). -/
  rBase : Word
  /-- Register 8, `INT_DIGITS` (R32). -/
  intDigits : Word
  /-- Digit memory `DM` (R43). -/
  dm : Memory
  /-- The draw that the never-written bytes of `DM` hold (R49, R260; log entry 4). -/
  dmDraw : Nat
  /-- The next unused draw (log entry 4). -/
  drawNext : Nat
  /-- The moves still to come, the next one first (R76; log entry 5). -/
  agenda : List Move
  /-- What the host's reads returned, the latest first (log entry 10). -/
  reads : List BusRead
  deriving DecidableEq, Repr

/-- Why the machine stops. No command stops it: both faults are host accesses the spec gives no meaning to. -/
inductive Fault where
  /-- Raised by a host `st` or `ld` while `BUSY = 1`: the spec's "stuck" (spec/93_implementation_defined.md U4,
  spec/70_reset_and_hazards.md R267). Safe: the model stops where the hardware goes on unspecified (log entry 8). -/
  | dmAccessInFlight
  /-- Raised by a host `st` or `ld` at an address `DM` does not have (spec/10_state.md R43, spec/20_memory.md R74).
  Safe (log entry 9). -/
  | noSuchDmAddress
  deriving DecidableEq, Repr

/-- Why the model gives no meaning. -/
inductive Refusal where
  /-- Raised by `exec` for a command that has no meaning yet. No arm uses it: all eight commands have theirs. Safe. -/
  | notModelled (mnemonic : String)
  deriving DecidableEq, Repr

/-- The outcome of a step of this machine. -/
abbrev Result := Host.Outcome State Fault Refusal

/-- The machine right after reset (spec/10_state.md R49, spec/70_reset_and_hazards.md R260, R261): all nine
registers 0, every byte of digit memory a draw, engine idle. `par` is a DESIGN CHOICE (log entry 1), as are
the two draw numbers (log entry 4). -/
def State.reset : State where
  par := Config.resetParams
  cmd := 0#32
  status := 0#32
  ret := 0#32
  aBase := 0#32
  aLen := 0#32
  bBase := 0#32
  bLen := 0#32
  rBase := 0#32
  intDigits := 0#32
  dm := []
  dmDraw := 0
  drawNext := 1
  agenda := []
  reads := []

end Sys2Proof.Machine
end

