-- ==== Sys2Proof/Machine/Flags.lean ====
section
/-! DEFINITION. The fields of `STATUS`: how an outcome is packed and how the fields are read (spec/10_state.md R36, R37, R39). -/

namespace Sys2Proof.Machine

/-- The numeric code of an outcome (spec/60_exceptions.md R230). -/
def errCode : Err → Nat
  | .ok => 0
  | .divByZero => 1
  | .overflow => 2
  | .badOperand => 3
  | .illegalCmd => 4

/-- `STATUS` of a completed command: `ERR`, `CO`, `BO` written together, `BUSY` 0, reserved bits 0 (R39, R93). -/
def packStatus (e : Err) (co bo : Bool) : Word :=
  BitVec.ofNat 32 (errCode e + 16 * co.toNat + 32 * bo.toNat)

/-- `STATUS.ERR`, bits 3:0. -/
def statusErr (s : State) : Nat := (s.status.extractLsb' 0 4).toNat

/-- `STATUS.CO`, bit 4 (R36). -/
def statusCO (s : State) : Bool := s.status.getLsbD 4

/-- `STATUS.BO`, bit 5 (R37). -/
def statusBO (s : State) : Bool := s.status.getLsbD 5

/-- `STATUS.BUSY`, bit 31. -/
def busy (s : State) : Bool := s.status.getLsbD 31

/-- `STATUS` with `BUSY` set: the other fields keep the previous outcome (spec/70_reset_and_hazards.md R268). -/
def setBusy (w : Word) : Word := w ||| 0x80000000#32

/-- `STATUS` with `BUSY` cleared. -/
def clearBusy (w : Word) : Word := w &&& 0x7FFFFFFF#32

/-- What a read of `STATUS` returns: the reserved bits 30:6 read 0 (R39; log entry 12). -/
def statusRead (w : Word) : Word := w &&& 0x8000003F#32

/-- `CO` of an addition: the final carry, which is 0 or 1 (R36). -/
def carryFlag (c : Nat) : Bool := c != 0

/-- `BO` of a subtraction: the borrow walk ran off digit 0 (R37, spec/43_sub.md R162). -/
def borrowFlag (r : Option Digits) : Bool := r.isNone

end Sys2Proof.Machine
end

