-- ==== Sys2Proof/Machine/Ops.lean ====
section
/-! DEFINITION. The named operations over digit memory and registers, completing a command and raising a status. -/

namespace Sys2Proof.Machine

/-! ## Digit memory -/

/-- The byte listed at an address, if it has been written since reset. -/
def memGet : Memory → Nat → Option Byte
  | [], _ => none
  | (b, v) :: m, a => if a = b then some v else memGet m a

/-- Write one byte, keeping the addresses strictly rising. -/
def memPut : Memory → Nat → Byte → Memory
  | [], a, v => [(a, v)]
  | (b, w) :: m, a, v =>
    if a < b then (a, v) :: (b, w) :: m
    else if a = b then (a, v) :: m
    else (b, w) :: memPut m a v

/-- `MemWrite(addr, n, v)` with `n` the length of `v`: digit 0 at `addr` (spec/20_memory.md R66, R62). -/
def memWrite : Memory → Nat → Digits → Memory
  | m, _, [] => m
  | m, a, d :: ds => memWrite (memPut m a d) (a + 1) ds

/-- The byte at an address of `DM`: the one written last, or, for a byte not written since reset, a free value
(spec/10_state.md R49, spec/70_reset_and_hazards.md R264, U3; log entry 2). -/
def dmByte (s : State) (a : Nat) : Byte := (memGet s.dm a).getD (Config.draw s.dmDraw a)

/-- `MemRead(addr, n)`: the `n` bytes from `addr` up, the lowest address first (spec/20_memory.md R66, R62). -/
def memRead (s : State) (a : Nat) : Nat → Digits
  | 0 => []
  | n + 1 => dmByte s a :: memRead s (a + 1) n

/-- A buffer is in range when `base + n <= DM_SIZE` in unbounded integers (spec/20_memory.md R67). -/
def inRange (p : Params) (base n : Nat) : Bool := decide (base + n ≤ p.dmSize)

/-- Two buffers share a byte (spec/20_memory.md R70). -/
def sharesByte (b1 n1 b2 n2 : Nat) : Bool := decide (b1 < b2 + n2) && decide (b2 < b1 + n1)

/-! ## Free values -/

/-- `draw(n)`: `n` free digits, those of the next unused draw (spec/00_scope.md R16; log entry 4). -/
def drawDigits (s : State) (n : Nat) : Digits := (List.range n).map (Config.draw s.drawNext)

/-- The draw has been taken: the next one is another. -/
def useDraw (s : State) : State := { s with drawNext := s.drawNext + 1 }

/-! ## Completion -/

/-- A command completes with `ERR = OK` (spec/30_encoding.md R93): the result buffer, `STATUS` and `RET` are
written together and `BUSY` becomes 0. -/
def complete (s : State) (base : Nat) (result : Digits) (co bo : Bool) (ret : Word) : State :=
  { s with dm := memWrite s.dm base result, status := packStatus .ok co bo, ret := ret }

/-- `raise e`, the one way a command fails (spec/60_exceptions.md R236): `ERR <- e`, `CO`, `BO`, `RET` and
`BUSY` 0. Descriptors and `CMD` keep their values. `DM` is as the caller left it (R240). Nothing else is
recorded (R241), no control is transferred (R243), and there is no return from it (R244). -/
def raiseStatus (e : Err) (s : State) : State :=
  { s with status := packStatus e false false, ret := 0#32 }

/-- A command writes its result buffer and then raises a status (`DIV` only, R240). -/
def raiseWith (e : Err) (base : Nat) (result : Digits) (s : State) : State :=
  raiseStatus e { s with dm := memWrite s.dm base result }

/-- The start of a command (spec/30_encoding.md R92): the word is stored in `CMD` and `BUSY` becomes 1. The
descriptors need no copy: no write lands on them before completion (R34, R268; log entry 7). -/
def startCmd (w : Word) (s : State) : State :=
  { s with cmd := w, status := setBusy s.status }

/-! ## Registers -/

/-- A host read of a register (spec/30_encoding.md R97): numbers 9 and above read 0 (R41). -/
def readReg (s : State) (n : Nat) : Word :=
  match n with
  | 0 => s.cmd
  | 1 => statusRead s.status
  | 2 => s.ret
  | 3 => s.aBase
  | 4 => s.aLen
  | 5 => s.bBase
  | 6 => s.bLen
  | 7 => s.rBase
  | 8 => s.intDigits
  | _ => 0#32

/-- A host write of a descriptor register: all 32 bits are stored and nothing is checked (R32). A write to
`STATUS`, `RET` or a number above 8 is ignored (R39 to R41). `CMD` is not written here: see `startCmd`. -/
def writeReg (s : State) (n : Nat) (v : Word) : State :=
  match n with
  | 3 => { s with aBase := v }
  | 4 => { s with aLen := v }
  | 5 => { s with bBase := v }
  | 6 => { s with bLen := v }
  | 7 => { s with rBase := v }
  | 8 => { s with intDigits := v }
  | _ => s

/-- The byte offset of a register from `REG_BASE` (spec/30_encoding.md R97). -/
def regOffset (n : Nat) : Nat := 4 * n

/-- The bus address of a register on a byte-addressed bus (spec/20_memory.md R63). -/
def regAddress (p : Params) (n : Nat) : Nat := p.regBase + regOffset n

/-! ## Reset -/

/-- The reset input is asserted (spec/70_reset_and_hazards.md R260): every register 0, a command in flight
abandoned, every byte of `DM` a fresh draw, whatever it held. What the host has yet to do and what it has
read are no state of the DAU and stay (log entry 20). -/
def applyReset (s : State) : State :=
  { par := s.par
    cmd := 0#32
    status := 0#32
    ret := 0#32
    aBase := 0#32
    aLen := 0#32
    bBase := 0#32
    bLen := 0#32
    rBase := 0#32
    intDigits := 0#32
    dm := []
    dmDraw := s.drawNext
    drawNext := s.drawNext + 1
    agenda := s.agenda
    reads := s.reads }

end Sys2Proof.Machine
end

