-- ==== Sys2Proof/Machine/Operands.lean ====
section
/-! DEFINITION. The operands of the commands: which buffers they use (spec/10_state.md R33, spec/20_memory.md R72)
and the validation of them (spec/60_exceptions.md R238). -/

namespace Sys2Proof.Machine

/-! ## Buffers -/

/-- The number of digits of the `b` buffer: `A_LEN` in the same-length forms, `B_LEN` in the others, none for
the in-place commands (R33, R238 item 5). -/
def bufLenB (i : Instr) (s : State) : Nat :=
  match i with
  | .add => s.aLen.toNat
  | .addx => s.bLen.toNat
  | .sub => s.aLen.toNat
  | .subx => s.bLen.toNat
  | .mul => s.bLen.toNat
  | .div => s.aLen.toNat
  | .shib => 0
  | .shid => 0

/-- Where the buffer a command writes begins: `R_BASE`, or `A_BASE` for the in-place commands (R72). -/
def resultBase (i : Instr) (s : State) : Nat :=
  match i with
  | .add => s.rBase.toNat
  | .addx => s.rBase.toNat
  | .sub => s.rBase.toNat
  | .subx => s.rBase.toNat
  | .mul => s.rBase.toNat
  | .div => s.rBase.toNat
  | .shib => s.aBase.toNat
  | .shid => s.aBase.toNat

/-- The number of digits of the buffer a command writes (R33, R72). -/
def resultLen (i : Instr) (s : State) : Nat :=
  match i with
  | .add => s.aLen.toNat
  | .addx => s.aLen.toNat + 1
  | .sub => s.aLen.toNat
  | .subx => s.aLen.toNat
  | .mul => s.aLen.toNat + s.bLen.toNat + 1
  | .div => s.aLen.toNat
  | .shib => s.aLen.toNat
  | .shid => s.aLen.toNat

/-- Operand `a`: `A_LEN` digits at `A_BASE`, for every command. -/
def operandA (s : State) : Digits := memRead s s.aBase.toNat s.aLen.toNat

/-- Operand `b` of a command. -/
def operandB (i : Instr) (s : State) : Digits := memRead s s.bBase.toNat (bufLenB i s)

/-! ## Validation, item by item -/

/-- Item 1: `1 <= A_LEN <= MAXLEN`. -/
def validALen (s : State) : Bool := decide (1 ≤ s.aLen.toNat) && decide (s.aLen.toNat ≤ s.par.maxLen)

/-- Item 2: `1 <= B_LEN <= MAXLEN`. -/
def validBLen (s : State) : Bool := decide (1 ≤ s.bLen.toNat) && decide (s.bLen.toNat ≤ s.par.maxLen)

/-- Item 3: `B_LEN <= A_LEN`. -/
def validOrder (s : State) : Bool := decide (s.bLen.toNat ≤ s.aLen.toNat)

/-- Item 4: `INT_DIGITS <= A_LEN`. -/
def validIntDigits (s : State) : Bool := decide (s.intDigits.toNat ≤ s.aLen.toNat)

/-- Item 5 for the in-place commands: the `a` buffer is in range. -/
def validRangeA (s : State) : Bool := inRange s.par s.aBase.toNat s.aLen.toNat

/-- Item 5 for the commands with a result buffer: `a`, `b` and the result are in range. -/
def validRanges (i : Instr) (s : State) : Bool :=
  inRange s.par s.aBase.toNat s.aLen.toNat && inRange s.par s.bBase.toNat (bufLenB i s) &&
    inRange s.par s.rBase.toNat (resultLen i s)

/-- Item 6: the result buffer shares no byte with the `a` buffer nor with the `b` buffer. -/
def validDisjoint (i : Instr) (s : State) : Bool :=
  !sharesByte s.rBase.toNat (resultLen i s) s.aBase.toNat s.aLen.toNat &&
    !sharesByte s.rBase.toNat (resultLen i s) s.bBase.toNat (bufLenB i s)

/-- Item 7: every digit of the `a` buffer is `<= 9`. -/
def validDecimal (s : State) : Bool := (operandA s).all fun d => decide (d.toNat ≤ 9)

/-- Operand validation: the items that apply to each command (the table of R238). A register the command
ignores is not tested. -/
def operandsOk (i : Instr) (s : State) : Bool :=
  match i with
  | .add => validALen s && (validRanges .add s && validDisjoint .add s)
  | .addx => validALen s && (validBLen s && validOrder s && validRanges .addx s && validDisjoint .addx s)
  | .sub => validALen s && (validRanges .sub s && validDisjoint .sub s)
  | .subx => validALen s && (validBLen s && validOrder s && validRanges .subx s && validDisjoint .subx s)
  | .mul => validALen s && (validBLen s && validRanges .mul s && validDisjoint .mul s)
  | .div => validALen s && (validIntDigits s && validRanges .div s && validDisjoint .div s)
  | .shib => validALen s && (validRangeA s && validDecimal s)
  | .shid => validALen s && validRangeA s

end Sys2Proof.Machine
end

