-- ==== Sys2Proof/Machine/Add.lean ====
section
/-! DEFINITION. Addition: `ADD` and `ADDX` (spec/42_add.md R150, R151). -/

namespace Sys2Proof.Machine

/-- Digit-wise addition of two arrays of one length, the carry going from the least to the most significant
digit: the final carry and the sum's digits (the loop of R150). -/
def addDigits : Digits → Digits → Nat × Digits
  | x :: a, y :: b =>
    match addDigits a b with
    | (c, r) => ((x.toNat + y.toNat + c) / 256, BitVec.ofNat 8 ((x.toNat + y.toNat + c) % 256) :: r)
  | _, _ => (0, [])

/-- `ADD` (R150): the carry is discarded from the result and shown in `CO`. -/
def execAdd (s : State) : Result :=
  if operandsOk .add s then
    match addDigits (operandA s) (operandB .add s) with
    | (c, r) => .next (complete s s.rBase.toNat r (carryFlag c) false 0#32)
  else .next (raiseStatus .badOperand s)

/-- `ADDX` (R151): `b` pairs with the least significant end of `a`, and the final carry is the leading digit. -/
def execAddx (s : State) : Result :=
  if operandsOk .addx s then
    match addDigits (operandA s) (padTo s.aLen.toNat (operandB .addx s)) with
    | (c, r) => .next (complete s s.rBase.toNat (BitVec.ofNat 8 c :: r) (carryFlag c) false 0#32)
  else .next (raiseStatus .badOperand s)

end Sys2Proof.Machine
end

