-- ==== Sys2Proof/Machine/Primitives.lean ====
section
/-! DEFINITION. The bit and array primitives inside the engine (spec/40_primitives.md R120 to R128). No command
invokes one directly (R96). An array's `len` is the length of its list. -/

namespace Sys2Proof.Machine

/-- `compare_le` (R121): lexicographic from the most significant digit, true on equality. Both arrays have the
same length at every call (log entry 17). -/
def compareLe : Digits → Digits → Bool
  | x :: a, y :: b =>
    if x.toNat < y.toNat then true else if y.toNat < x.toNat then false else compareLe a b
  | _, _ => true

/-- `is_zero` (R122): every digit is 0. -/
def isZero (a : Digits) : Bool := a.all fun d => d == 0#8

/-- `clear` (R123): all digits set to zero. -/
def clear (a : Digits) : Digits := zeros a.length

/-- `widen` (R124): the source in the high-order part of a longer array, zero below. Its requirement
`target_len >= source_len` holds at both calls (log entry 16). -/
def widen (source : Digits) (targetLen : Nat) : Digits := source ++ zeros (targetLen - source.length)

/-- `byte_shift_right` (R125): every digit moves `places` positions towards the higher indices. -/
def byteShiftRight (a : Digits) (places : Nat) : Digits :=
  if a.length ≤ places then zeros a.length else zeros places ++ a.take (a.length - places)

/-- `bit_mask` (R126): the `n` least significant bits set, saturating at a full byte. -/
def bitMask (n : Nat) : Byte := if 8 ≤ n then 255#8 else BitVec.ofNat 8 (2 ^ n - 1)

/-- The digit loop of `bit_shift_right` (R127): each digit goes right by `k` and takes in the low bits of its
more significant neighbour `hi`, both as they were before any digit was replaced. -/
def shiftDigits (k : Nat) : Byte → Digits → Digits
  | _, [] => []
  | hi, d :: ds => ((d >>> k) ||| ((hi &&& bitMask k) <<< (8 - k))) :: shiftDigits k d ds

/-- `bit_shift_right` (R127): division by `2^places`. -/
def bitShiftRight (a : Digits) (places : Nat) : Digits :=
  if places % 8 = 0 then byteShiftRight a (places / 8)
  else shiftDigits (places % 8) 0#8 (byteShiftRight a (places / 8))

/-- `set_bit` (R128): bit `7 - (q mod 8)` of digit `q div 8` becomes 1. Its requirement `q < 8 * len` holds at
its one call (log entry 16). -/
def setBit (a : Digits) (q : Nat) : Digits :=
  a.modify (q / 8) fun d => d ||| (1#8 <<< (7 - q % 8))

end Sys2Proof.Machine
end

