-- ==== Sys2Proof/Machine/Alignment.lean ====
section
/-! DEFINITION. The division alignment helpers (spec/41_alignment.md R140 to R144). The loops run on fuel that
their termination arguments show to be enough (log entry 15). -/

namespace Sys2Proof.Machine

/-- *Halving* (R140): `bit_shift_right(x, 1, len)`. -/
def halve (x : Digits) : Digits := bitShiftRight x 1

/-- The number of bits of an array: a bound on how often a non-zero one can be halved before it is zero. -/
def bitLen (x : Digits) : Nat := 8 * x.length

/-- The loop of `align_dividend` (R141). `none`: the fuel ran out before the loop ended. -/
def alignDividendLoop (divisor : Digits) : Nat → Digits → Int → Option (Digits × Int)
  | 0, _, _ => none
  | f + 1, dividend, c =>
    if compareLe divisor dividend then alignDividendLoop divisor f (halve dividend) (c - 1)
    else some (dividend, c)

/-- `align_dividend` (R141): the dividend halved until it is below the divisor, and minus the number of
halvings. `none` stands for the loop that never ends, which only a zero divisor gives. -/
def alignDividend (dividend divisor : Digits) : Option (Digits × Int) :=
  alignDividendLoop divisor (bitLen dividend + 1) dividend 0

/-- The loop of `align_divisor` (R142). It always ends before the fuel does: after `8*len` halvings the
divisor is 0. -/
def alignDivisorLoop (dividend : Digits) : Nat → Digits → Nat → Digits × Nat
  | 0, divisor, c => (divisor, c)
  | f + 1, divisor, c =>
    if compareLe divisor dividend then (divisor, c)
    else alignDivisorLoop dividend f (halve divisor) (c + 1)

/-- `align_divisor` (R142): the divisor halved until it is not above the dividend, and the number of halvings. -/
def alignDivisor (dividend divisor : Digits) : Digits × Nat :=
  alignDivisorLoop dividend (bitLen divisor + 1) divisor 0

/-- `align` (R143): the dividend first, then the divisor on the halved dividend; the sum of the two counts. -/
def align (dividend divisor : Digits) : Option (Digits × Digits × Int) :=
  match alignDividend dividend divisor with
  | none => none
  | some (dividend', c1) =>
    match alignDivisor dividend' divisor with
    | (divisor', c2) => some (dividend', divisor', c1 + c2)

/-- `readjust` (R144): `align_divisor` on the current remainder. -/
def readjust (remainder divisor : Digits) : Digits × Nat := alignDivisor remainder divisor

end Sys2Proof.Machine
end

