-- ==== Sys2Proof/Machine/Sub.lean ====
section
/-! DEFINITION. Subtraction: `sub_arrays`, `SUB` and `SUBX` (spec/43_sub.md R160 to R163). -/

namespace Sys2Proof.Machine

/-- The borrow walk of R162 over the not yet consumed digits of the working copy, the least significant first:
zeros become 255 until a non-zero digit is found, which is decremented. `none`: there is no digit to borrow from. -/
def borrowWalk : Digits → Option Digits
  | [] => none
  | d :: ds => if d = 0#8 then (borrowWalk ds).map (255#8 :: ·) else some (BitVec.ofNat 8 (d.toNat - 1) :: ds)

/-- The digit loop of `sub_arrays` (R162), the least significant digit first. First argument: the subtrahend's
digits, one for each digit of the minuend. Second: the not yet consumed digits of the working copy (R45).
`none`: a walk ran off digit 0, the contract is broken. -/
def subLoop : Digits → Digits → Option Digits
  | y :: b, x :: w =>
    if x.toNat < y.toNat then
      match borrowWalk w with
      | none => none
      | some w' => (subLoop b w').map (BitVec.ofNat 8 (x.toNat + 256 - y.toNat) :: ·)
    else (subLoop b w).map (BitVec.ofNat 8 (x.toNat - y.toNat) :: ·)
  | _, _ => some []

/-- `sub_arrays` (R162), for `nb <= na`: the difference with `bo = 0`, or `none` for `(unspecified, 1)`. -/
def subArrays (a b : Digits) : Option Digits :=
  (subLoop (padTo a.length b).reverse a.reverse).map List.reverse

/-- Completion of a subtraction: the difference with `BO` 0, or, for a broken contract, a draw with `BO` 1 and
nothing else touched (R163; log entry 13). -/
def completeSub (s : State) (r : Option Digits) : State :=
  match r with
  | some d => complete s s.rBase.toNat d false (borrowFlag r) 0#32
  | none => useDraw (complete s s.rBase.toNat (drawDigits s s.aLen.toNat) false (borrowFlag r) 0#32)

/-- `SUB` (R161). -/
def execSub (s : State) : Result :=
  if operandsOk .sub s then .next (completeSub s (subArrays (operandA s) (operandB .sub s)))
  else .next (raiseStatus .badOperand s)

/-- `SUBX` (R162). -/
def execSubx (s : State) : Result :=
  if operandsOk .subx s then .next (completeSub s (subArrays (operandA s) (operandB .subx s)))
  else .next (raiseStatus .badOperand s)

end Sys2Proof.Machine
end

