-- ==== Sys2Proof/Machine/Div.lean ====
section
/-! DEFINITION. Division: `DIV` (spec/45_div.md R180 to R187). -/

namespace Sys2Proof.Machine

/-- What the division algorithm ends with. -/
inductive DivOutcome where
  /-- Step 1: the divisor is all zero (R182). -/
  | byZero
  /-- Step 4: the adjusted bit pointer is negative (R185). -/
  | overflow
  /-- The result array. -/
  | quotient (r : Digits)
  /-- No end reached within the bounds of R188 and R274. No operands give it (log entry 15). -/
  | unspecified
  deriving DecidableEq, Repr

/-- Steps 5 and 6 (R186, R187): `r` the result so far, `d` the current dividend scratch buffer, `v` the divisor
scratch buffer, `p` the bit pointer, each iteration in the order (a) to (e). The loop ends when `p >= 8*n`.
`none`: the fuel ran out or a subtraction broke its contract, which R188 excludes. -/
def divLoop : Nat → Digits → Digits → Digits → Nat → Option Digits
  | 0, r, _, _, p => if p < bitLen r then none else some r
  | f + 1, r, d, v, p =>
    if p < bitLen r then
      match subArrays d v with
      | none => none
      | some d2 =>
        match readjust d2 v with
        | (v', t) => divLoop f (setBit r p) d2 v' (p + t)
    else some r

/-- The division algorithm of R180 on a dividend and a divisor of one length, steps 1 to 6. -/
def divDigits (dividend divisor : Digits) (intDigits : Nat) : DivOutcome :=
  if isZero divisor then .byZero
  else if isZero dividend then .quotient (clear dividend)
  else
    match align (widen dividend (2 * dividend.length)) (widen divisor (2 * divisor.length)) with
    | none => .unspecified
    | some (d, v, c) =>
      if 8 * (intDigits : Int) - 1 + c < 0 then .overflow
      else
        match divLoop (bitLen dividend) (clear dividend) d v (8 * (intDigits : Int) - 1 + c).toNat with
        | none => .unspecified
        | some r => .quotient r

/-- Completion of a division (R180, R240): zeros after an overflow, a draw after a division by zero (log entry
14). The last arm is never taken (log entry 15); it leaves the result free. -/
def completeDiv (s : State) (r : DivOutcome) : State :=
  match r with
  | .byZero => useDraw (raiseWith .divByZero s.rBase.toNat (drawDigits s s.aLen.toNat) s)
  | .overflow => raiseWith .overflow s.rBase.toNat (zeros s.aLen.toNat) s
  | .quotient d => complete s s.rBase.toNat d false false 0#32
  | .unspecified => useDraw (complete s s.rBase.toNat (drawDigits s s.aLen.toNat) false false 0#32)

/-- `DIV` (R180). -/
def execDiv (s : State) : Result :=
  if operandsOk .div s then
    .next (completeDiv s (divDigits (operandA s) (operandB .div s) s.intDigits.toNat))
  else .next (raiseStatus .badOperand s)

end Sys2Proof.Machine
end

