-- ==== Sys2Proof/Machine/Mul.lean ====
section
/-! DEFINITION. Multiplication: `MUL` (spec/44_mul.md R170). -/

namespace Sys2Proof.Machine

/-- One row of R170 (the inner loop), arrays the least significant digit first: digit `y` of `b` times all
digits of `a`, added into the result window with carry `c`; the row's last carry is stored above them, where
the window still holds 0. -/
def mulRow (y : Byte) : Digits → Digits → Nat → Digits
  | x :: a, t :: r, c =>
    BitVec.ofNat 8 ((t.toNat + x.toNat * y.toNat + c) % 256) ::
      mulRow y a r ((t.toNat + x.toNat * y.toNat + c) / 256)
  | [], _ :: r, c => BitVec.ofNat 8 c :: r
  | _, [], _ => []

/-- The rows of R170 (the outer loop), the least significant digit of `b` first. Each row leaves one more low
digit of the result final, and the window moves one digit up. -/
def mulRows (a : Digits) : Digits → Digits → Digits
  | [], r => r
  | y :: b, r =>
    match mulRow y a r 0 with
    | [] => []
    | d :: r' => d :: mulRows a b r'

/-- The product array of R170: `na + nb + 1` digits, zero-initialised. -/
def mulDigits (a b : Digits) : Digits :=
  (mulRows a.reverse b.reverse (zeros (a.length + b.length + 1))).reverse

/-- `MUL` (R170). -/
def execMul (s : State) : Result :=
  if operandsOk .mul s then
    .next (complete s s.rBase.toNat (mulDigits (operandA s) (operandB .mul s)) false false 0#32)
  else .next (raiseStatus .badOperand s)

end Sys2Proof.Machine
end

