-- ==== Sys2Proof/Machine/Radix.lean ====
section
/-! DEFINITION. The radix-conversion multiplier: `SHIB` and `SHID` (spec/46_radix.md R200, R201). -/

namespace Sys2Proof.Machine

/-- One conversion step: an array in radix `R` times `m`, the least significant digit first; the carry out of
digit 0 and the new array. -/
def radixStep (R m : Nat) : Digits → Nat × Digits
  | [] => (0, [])
  | d :: ds =>
    match radixStep R m ds with
    | (c, r) => ((d.toNat * m + c) / R, BitVec.ofNat 8 ((d.toNat * m + c) % R) :: r)

/-- `SHIB` (R200): a decimal array times 256, in place; the emitted base-256 digit goes to `RET`. -/
def execShib (s : State) : Result :=
  if operandsOk .shib s then
    match radixStep 10 256 (operandA s) with
    | (c, r) => .next (complete s s.aBase.toNat r false false (BitVec.ofNat 32 c))
  else .next (raiseStatus .badOperand s)

/-- `SHID` (R201): a base-256 array times 10, in place; the emitted decimal digit goes to `RET`. -/
def execShid (s : State) : Result :=
  if operandsOk .shid s then
    match radixStep 256 10 (operandA s) with
    | (c, r) => .next (complete s s.aBase.toNat r false false (BitVec.ofNat 32 c))
  else .next (raiseStatus .badOperand s)

end Sys2Proof.Machine
end

