-- ==== Sys2Proof/Machine/Dispatch.lean ====
section
/-! DEFINITION. One arm per command: its meaning. -/

namespace Sys2Proof.Machine

/-- What a command does, from the state after its start (spec/30_encoding.md R92) to its completion (R93). -/
def exec (i : Instr) (s : State) : Host.Outcome State Fault Refusal :=
  match i with
  | .add => Sys2Proof.Machine.execAdd s
  | .addx => Sys2Proof.Machine.execAddx s
  | .sub => Sys2Proof.Machine.execSub s
  | .subx => Sys2Proof.Machine.execSubx s
  | .mul => Sys2Proof.Machine.execMul s
  | .div => Sys2Proof.Machine.execDiv s
  | .shib => Sys2Proof.Machine.execShib s
  | .shid => Sys2Proof.Machine.execShid s

end Sys2Proof.Machine
end

