-- ==== Sys2Proof/Machine/HostPort.lean ====
section
/-! DEFINITION. The moves of the host, of the engine and of the reset input on the DAU's port
(spec/30_encoding.md R92, R98, spec/70_reset_and_hazards.md R260, R266 to R268). -/

namespace Sys2Proof.Machine

/-- The engine runs the command in flight, whose word is in `CMD`, to its completion: the decode check first
(spec/60_exceptions.md R237, R239), then the command's meaning. -/
def runCommand (s : State) : Result :=
  match decode s.cmd with
  | .error _ => .next (raiseStatus .illegalCmd s)
  | .ok i => exec i s

/-- `WR`: while `BUSY = 1` every register write is ignored (R268); a write to `CMD` starts a command and, as
one atomic transition, completes it (R92; log entry 6). -/
def hostWrite (n : Nat) (v : Word) (s : State) : Result :=
  if busy s then .next s
  else if n = 0 then runCommand (startCmd v s)
  else .next (writeReg s n v)

/-- `RD`: no side effect on the DAU (spec/20_memory.md R73); the value goes to the host's record. -/
def hostRead (n : Nat) (s : State) : Result :=
  .next { s with reads := .reg n (readReg s n) :: s.reads }

/-- `ST`, one byte: allowed while `BUSY = 0`, at an address of `DM` (R266, R267; log entries 8, 9 and 11). -/
def hostStore (a : Nat) (d : Byte) (s : State) : Result :=
  if busy s then .fault .dmAccessInFlight
  else if a < s.par.dmSize then .next { s with dm := memPut s.dm a d }
  else .fault .noSuchDmAddress

/-- `LD`, one byte: allowed while `BUSY = 0`, at an address of `DM`. -/
def hostLoad (a : Nat) (s : State) : Result :=
  if busy s then .fault .dmAccessInFlight
  else if a < s.par.dmSize then .next { s with reads := .byte a (dmByte s a) :: s.reads }
  else .fault .noSuchDmAddress

/-- A write to `CMD` whose command is still in flight after this move; ignored while `BUSY = 1` (R47, R268). -/
def beginCommand (v : Word) (s : State) : Result :=
  if busy s then .next s else .next (startCmd v s)

/-- The engine's own move: it completes the command in flight, and is idle when there is none (R47, R251). -/
def engineMove (s : State) : Result := if busy s then runCommand s else .next s

/-- The state with a given rest of the agenda. -/
def withAgenda (s : State) (rest : List Move) : State := { s with agenda := rest }

/-- `WAIT` (spec/30_encoding.md R99): one read of `STATUS` a step, and the wait goes on as long as a read finds `BUSY = 1`.
When `polls` reads have found it so, the engine completes the command, and the next read ends the wait (R274;
log entry 24). -/
def hostWait (polls : Nat) (s : State) : Result :=
  if busy s then
    match polls with
    | 0 => runCommand (withAgenda s (.wait 0 :: s.agenda))
    | k + 1 => hostRead 1 (withAgenda s (.wait k :: s.agenda))
  else hostRead 1 s

/-- One move. -/
def doMove (m : Move) (s : State) : Result :=
  match m with
  | .wr n v => hostWrite n v s
  | .rd n => hostRead n s
  | .st a d => hostStore a d s
  | .ld a => hostLoad a s
  | .cmdStart v => beginCommand v s
  | .cmdFinish => engineMove s
  | .wait k => hostWait k s
  | .reset => .next (applyReset s)

/-- The next move taken from the agenda, or, when the host has nothing left to do, the engine's own move
(R50, R76; log entry 5). -/
def nextMove (s : State) : Result :=
  match s.agenda with
  | [] => engineMove s
  | m :: rest => doMove m (withAgenda s rest)

/-- The host is about to write the word `w` to `CMD` of an idle engine (log entry 18). -/
def aboutToWriteCmd (w : Word) (s : State) : State :=
  { s with status := clearBusy s.status, agenda := .wr 0 w :: s.agenda }

end Sys2Proof.Machine
end

