-- ==== Sys2Proof/Machine/Step.lean ====
section
/-! DEFINITION. One step of the machine, and the state in which the next step runs a given command word. -/

namespace Sys2Proof.Machine

/-- One step: the next move of the one sequence of host accesses and commands (spec/20_memory.md R76). -/
def step (s : State) : Host.Outcome State Fault Refusal := nextMove s

/-- The state in which the very next step runs the command word `w`: there is no fetch (spec/10_state.md R35),
a command is the value the host writes to `CMD` (spec/20_memory.md R79), so that write is put first on the
agenda of an idle engine (log entry 18). -/
def State.withFetchWord (s : State) (nbits w : Nat) : State := aboutToWriteCmd (tableWord nbits w) s

end Sys2Proof.Machine
end

