-- ==== Sys2Proof/Machine/HostProgram.lean ====
section
/-! DEFINITION. The spec's notation for host programs (spec/30_encoding.md R98 to R100) as moves and bus writes. -/

namespace Sys2Proof.Machine

/-- A statement or pseudo-statement of R98 and R99. Registers are named by number. -/
inductive Stmt where
  /-- `WR <reg>, <value>`. -/
  | wr (reg : Nat) (value : Word)
  /-- `RD <reg>`. -/
  | rd (reg : Nat)
  /-- `ST <addr>, ...`. -/
  | st (addr : Nat) (digits : Digits)
  /-- `LD <addr>, <n>`. -/
  | ld (addr : Nat) (n : Nat)
  /-- A command mnemonic: `WR CMD, <opcode>` and then a `WAIT`. -/
  | command (i : Instr)
  /-- `SETA <base>, <len>`. -/
  | setA (base len : Word)
  /-- `SETB <base>, <len>`. -/
  | setB (base len : Word)
  /-- `SETR <base>`. -/
  | setR (base : Word)
  /-- `SETI <n>`. -/
  | setI (n : Word)
  /-- `WAIT`. -/
  | wait
  deriving DecidableEq, Repr

/-- `n` byte writes, digit 0 at `addr`. -/
def storeMoves : Nat → Digits → List Move
  | _, [] => []
  | a, d :: ds => .st a d :: storeMoves (a + 1) ds

/-- `n` byte reads, the lowest address first. -/
def loadMoves (a n : Nat) : List Move := (List.range n).map fun i => .ld (a + i)

/-- How a command of a host program spends the time the spec does not give it (spec/70_reset_and_hazards.md R275;
log entry 24). -/
inductive Timing where
  /-- It completes in the same step as the write that starts it. -/
  | atomic
  /-- It is in flight until a later wait, in which `polls` reads of `STATUS` still find `BUSY = 1`. -/
  | inFlight (polls : Nat)
  deriving DecidableEq, Repr

/-- The host's write to `CMD` (R98 "`WR`"): the command completes at once or is in flight after it. -/
def cmdMove (w : Word) : Timing → Move
  | .atomic => .wr 0 w
  | .inFlight _ => .cmdStart w

/-- The host's `WAIT` (R99). -/
def waitMove : Timing → Move
  | .atomic => .wait 0
  | .inFlight k => .wait k

/-- The moves of a statement (R98, R99). A command mnemonic implies a `WAIT` after its write to `CMD`. -/
def stmtMoves (t : Timing) : Stmt → List Move
  | .wr n v => if n = 0 then [cmdMove v t] else [.wr n v]
  | .rd n => [.rd n]
  | .st a ds => storeMoves a ds
  | .ld a n => loadMoves a n
  | .command i => [cmdMove (encode i) t, waitMove t]
  | .setA b l => [.wr 3 b, .wr 4 l]
  | .setB b l => [.wr 5 b, .wr 6 l]
  | .setR b => [.wr 7 b]
  | .setI n => [.wr 8 n]
  | .wait => [waitMove t]

/-- The moves of a host program from its statement number `k` on, statement `k` timed by `t k`. -/
def programMovesFrom (t : Nat → Timing) : Nat → List Stmt → List Move
  | _, [] => []
  | k, p :: ps => stmtMoves (t k) p ++ programMovesFrom t (k + 1) ps

/-- The moves of a host program under a given timing. -/
def programMoves (t : Nat → Timing) (p : List Stmt) : List Move := programMovesFrom t 0 p

/-- One bus write of R100. -/
inductive BusWrite where
  /-- A 32-bit write at a byte offset from `REG_BASE`. -/
  | reg (offset : Nat) (value : Word)
  /-- A byte write to digit memory. -/
  | byte (addr : Nat) (digit : Byte)
  deriving DecidableEq, Repr

/-- The bus write of a move, if it makes one: reads carry no encoding (R100). -/
def moveWrite : Move → Option BusWrite
  | .wr n v => some (.reg (regOffset n) v)
  | .st a d => some (.byte a d)
  | .cmdStart v => some (.reg (regOffset 0) v)
  | .rd _ => none
  | .ld _ => none
  | .cmdFinish => none
  | .wait _ => none
  | .reset => none

/-- The bus writes of a list of moves, in order. -/
def busWrites (ms : List Move) : List BusWrite := ms.filterMap moveWrite

/-- The encoding of a host program (R100): the ordered list of its bus writes. Timing does not change it
(`programWrites_any_timing`). -/
def programWrites (p : List Stmt) : List BusWrite := busWrites (programMoves (fun _ => .atomic) p)

/-- The state with a host program about to run under a given timing. -/
def withProgram (s : State) (t : Nat → Timing) (p : List Stmt) : State := withAgenda s (programMoves t p)

end Sys2Proof.Machine
end

