-- ==== Sys2Proof/Safety.lean ====
section
/-! DEFINITION. What counts as a sound state and as a host that keeps to the protocol. -/

namespace Sys2Proof.Machine

/-- Every listed byte lies in `DM` (spec/10_state.md R43). -/
def memInside (p : Params) (m : Memory) : Bool := m.all fun c => decide (c.1 < p.dmSize)

/-- The outcome fields agree (spec/60_exceptions.md R236, spec/10_state.md R36, R37, R40): `ERR` is a code that is produced; a
failure leaves `CO`, `BO` and `RET` 0; at most one of `CO` and `BO` is 1, and then `RET` is 0; `RET` is a digit. -/
def outcomeSound (s : State) : Bool :=
  decide (statusErr s ≤ 4) && (statusErr s == 0 || (!statusCO s && !statusBO s && s.ret == 0#32)) &&
    !(statusCO s && statusBO s) && (!(statusCO s || statusBO s) || s.ret == 0#32) && decide (s.ret.toNat ≤ 255)

/-- The invariant of the machine: legal parameters (R10); digit memory in its canonical form and inside `DM`
(R43; log entry 3); reserved bits of `STATUS` 0 (R39); outcome fields that agree; every draw in use older than the
next one (log entry 4). -/
def State.Inv (s : State) : Prop :=
  s.par.wf = true ∧ s.dm.wf ∧ memInside s.par s.dm = true ∧ s.status.extractLsb' 6 25 = 0#25 ∧
    outcomeSound s = true ∧ s.dmDraw < s.drawNext

/-- A host that keeps to spec/70_reset_and_hazards.md R267, on the moves it has yet to make: it touches digit memory only
while `BUSY = 0`, and only at addresses of `DM`. After a wait `BUSY` is 0 (R99). The first argument is `BUSY` before the moves. -/
def agendaObeys (p : Params) : Bool → List Move → Bool
  | _, [] => true
  | b, .wr _ _ :: r => agendaObeys p b r
  | b, .rd _ :: r => agendaObeys p b r
  | b, .st a _ :: r => !b && decide (a < p.dmSize) && agendaObeys p b r
  | b, .ld a :: r => !b && decide (a < p.dmSize) && agendaObeys p b r
  | _, .cmdStart _ :: r => agendaObeys p true r
  | _, .cmdFinish :: r => agendaObeys p false r
  | _, .wait _ :: r => agendaObeys p false r
  | _, .reset :: r => agendaObeys p false r

/-- The host of this state keeps to the protocol. -/
def HostObeys (s : State) : Prop := agendaObeys s.par (busy s) s.agenda = true

/-- A safe run of `k` steps ends in a next state: neither a fault nor a refusal. -/
def SafeRun (k : Nat) (s : State) : Prop :=
  match k with
  | 0 => True
  | k + 1 => ∃ t, step s = .next t ∧ SafeRun k t

end Sys2Proof.Machine
end

