-- ==== Sys2Proof/Certificates/Slice0/Obligations.lean ====
section
/-! DEFINITION. The statements for the provers. Each says which rule of spec/ it formalises. -/

open Sys2Proof Sys2Proof.Machine

/-! ## Words the statements share -/

/-- The state after `raise BAD_OPERAND` (spec/60_exceptions.md R236, R240): code 3, flags and `RET` 0, all else kept. -/
def Sys2Proof.Spec.badOperand (s : State) : State := { s with status := 0x00000003#32, ret := 0#32 }

/-- The state after a completion that writes `digits` at `base`, with a given `STATUS` word and `RET` 0. -/
def Sys2Proof.Spec.wrote (s : State) (base : Nat) (digits : Digits) (status : Nat) : State :=
  { s with dm := memWrite s.dm base digits, status := BitVec.ofNat 32 status, ret := 0#32 }

/-- The same where what is written is a draw of `n` digits: nothing is said of their values. -/
def Sys2Proof.Spec.wroteDraw (s : State) (base n : Nat) (status : Nat) : State :=
  { Sys2Proof.Spec.wrote s base ((List.range n).map (Config.draw s.drawNext)) status with drawNext := s.drawNext + 1 }

/-- The value of operand `a` of a command: `A_LEN` digits at `A_BASE`. -/
def Sys2Proof.Spec.valA (s : State) : Nat := val (memRead s s.aBase.toNat s.aLen.toNat)

/-- The value of an operand `b` of `n` digits at `B_BASE`. -/
def Sys2Proof.Spec.valB (s : State) (n : Nat) : Nat := val (memRead s s.bBase.toNat n)

/-- The quotient of spec/45_div.md R189: `floor(val(N) * 256^(n - I) / val(M))`. -/
def Sys2Proof.Spec.quotient (s : State) : Nat :=
  Spec.valA s * 256 ^ (s.aLen.toNat - s.intDigits.toNat) / Spec.valB s s.aLen.toNat

/-- The host's next move is the write of `w` to `CMD` of an idle engine. -/
def Sys2Proof.Spec.writesCmd (s : State) (w : Word) (rest : List Move) : Prop :=
  busy s = false ∧ s.agenda = .wr 0 w :: rest

/-! ## Reset and idling -/

/-- R49, spec/10_state.md: every register is 0 after reset and every byte of DM is a draw. -/
def Obligations.ResetRegistersZeroMemoryDrawn : Prop :=
  State.reset.cmd = 0#32 ∧ State.reset.status = 0#32 ∧ State.reset.ret = 0#32 ∧ State.reset.aBase = 0#32 ∧
    State.reset.aLen = 0#32 ∧ State.reset.bBase = 0#32 ∧ State.reset.bLen = 0#32 ∧ State.reset.rBase = 0#32 ∧
    State.reset.intDigits = 0#32 ∧ ∀ a, dmByte State.reset a = Config.draw State.reset.dmDraw a

/-- The invariant of Safety.lean holds at reset. It rests on the model's choice of parameters and draw numbers
(log entries 1 and 4). -/
def Obligations.ResetMeetsInvariant : Prop := State.reset.Inv

/-- R261, spec/70_reset_and_hazards.md: the engine is idle after reset, and an idle engine whose host does nothing changes nothing. -/
def Obligations.IdleEngineChangesNothing : Prop :=
  busy State.reset = false ∧ ∀ s, s.agenda = [] → busy s = false → step s = .next s

/-- R260: a reset assertion, also during a command, zeroes every register, abandons the command and makes every
byte of DM a draw; the parameters stay. The model's own choices in it: the reset is a move of the agenda and keeps the rest
of the agenda (log entry 20), and the draw is the next unused one by number (log entry 4). -/
def Obligations.ResetInputClearsRegistersAndMemory : Prop :=
  ∀ s rest, s.agenda = .reset :: rest → ∃ t, step s = .next t ∧ (∀ n, readReg t n = 0#32) ∧ t.status = 0#32 ∧
    busy t = false ∧ (∀ a, dmByte t a = Config.draw s.drawNext a) ∧ t.par = s.par ∧ t.agenda = rest

/-- R51: with `A_LEN = 0` every command ends with `BAD_OPERAND`, and the word 0 ends with `ILLEGAL_CMD`; neither touches DM. -/
def Obligations.NoCommandTouchesMemoryBeforeALenIsSet : Prop :=
  State.reset.aLen = 0#32 ∧ (∀ i s, s.aLen = 0#32 → exec i s = .next (Spec.badOperand s)) ∧
    ∀ s rest, Spec.writesCmd s 0#32 rest → ∃ t, step s = .next t ∧ statusErr t = 4 ∧ t.dm = s.dm

/-! ## Encoding -/

/-- R94: the eight command words, written out. -/
def Obligations.EightWordsDecode : Prop :=
  decode 0x00000001#32 = .ok .add ∧ decode 0x00000002#32 = .ok .addx ∧ decode 0x00000003#32 = .ok .sub ∧
    decode 0x00000004#32 = .ok .subx ∧ decode 0x00000005#32 = .ok .mul ∧ decode 0x00000006#32 = .ok .div ∧
    decode 0x00000007#32 = .ok .shib ∧ decode 0x00000008#32 = .ok .shid

/-- Decoding the encoding of any well-formed command gives the command back. -/
def Obligations.DecodeUndoesEncode : Prop :=
  ∀ i : Instr, i.wf = true → decode (encode i) = .ok i ∧ decodeTableWord 32 (encode i).toNat = some i

/-- R95: a word is a command exactly when `RSVD` is 0 and `OPCODE` is 0x01 .. 0x08, and then it is that command's only
word. Every other word is rejected. -/
def Obligations.OnlyEightWordsAreCommands : Prop :=
  ∀ w : Word, (∀ i, decode w = .ok i ↔ w = encode i) ∧
    ((∃ i, decode w = .ok i) ↔ w.toNat / 256 = 0 ∧ 1 ≤ w.toNat % 256 ∧ w.toNat % 256 ≤ 8)

/-- R234, R95: an illegal word only completes, with code 4; the word stays in `CMD`, and nothing else changes. -/
def Obligations.IllegalWordTouchesNothing : Prop :=
  ∀ s w rest, Spec.writesCmd s w rest → (∀ i, w ≠ encode i) →
    step s = .next { s with agenda := rest, cmd := w, status := 0x00000004#32, ret := 0#32 }

/-! ## Steps -/

/-- R92: the host's write of a legal word to `CMD` of an idle engine stores the word, sets `BUSY` and executes the
command, in one step. -/
def Obligations.StepRunsDecodedCommand : Prop :=
  ∀ s w rest i, Spec.writesCmd s w rest → i.wf = true → decode w = .ok i →
    step s = exec i { s with agenda := rest, cmd := w, status := s.status ||| 0x80000000#32 }

/-- `withFetchWord` makes the very next step run exactly the word's command. -/
def Obligations.NextStepRunsFetchWord : Prop :=
  ∀ s w i, decodeTableWord 32 w = some i →
    ∃ t, step (s.withFetchWord 32 w) = .next t ∧ ∃ u, exec i s = .next u ∧ t = { u with cmd := BitVec.ofNat 32 w }

/-! ## Statuses and validation -/

/-- R238 item 5: the length of the `b` buffer. -/
def Sys2Proof.Spec.lenB (i : Instr) (s : State) : Nat :=
  if i = .add ∨ i = .sub ∨ i = .div then s.aLen.toNat else s.bLen.toNat

/-- R238 item 5: the length of the result buffer. -/
def Sys2Proof.Spec.lenR (i : Instr) (s : State) : Nat :=
  if i = .addx then s.aLen.toNat + 1 else if i = .mul then s.aLen.toNat + s.bLen.toNat + 1 else s.aLen.toNat

/-- The validation items of R238 in numbers. -/
def Sys2Proof.Spec.validOperands (i : Instr) (s : State) : Prop :=
  (1 ≤ s.aLen.toNat ∧ s.aLen.toNat ≤ s.par.maxLen) ∧
  (i = .addx ∨ i = .subx ∨ i = .mul → 1 ≤ s.bLen.toNat ∧ s.bLen.toNat ≤ s.par.maxLen) ∧
  (i = .addx ∨ i = .subx → s.bLen.toNat ≤ s.aLen.toNat) ∧
  (i = .div → s.intDigits.toNat ≤ s.aLen.toNat) ∧
  s.aBase.toNat + s.aLen.toNat ≤ s.par.dmSize ∧
  (i ≠ .shib → i ≠ .shid →
    s.bBase.toNat + Spec.lenB i s ≤ s.par.dmSize ∧ s.rBase.toNat + Spec.lenR i s ≤ s.par.dmSize ∧
    ∀ x, s.rBase.toNat ≤ x → x < s.rBase.toNat + Spec.lenR i s →
      ¬(s.aBase.toNat ≤ x ∧ x < s.aBase.toNat + s.aLen.toNat) ∧
      ¬(s.bBase.toNat ≤ x ∧ x < s.bBase.toNat + Spec.lenB i s)) ∧
  (i = .shib → ∀ k, k < s.aLen.toNat → (dmByte s (s.aBase.toNat + k)).toNat ≤ 9)

/-- R238: which operands each command accepts, and that any others raise `BAD_OPERAND`. -/
def Obligations.ValidationItemsPerCommand : Prop :=
  ∀ i s, (Spec.validOperands i s → operandsOk i s = true) ∧
    (¬Spec.validOperands i s → exec i s = .next (Spec.badOperand s))

/-- R239: the one status reported is the first that applies, in the order illegal word, bad operand, zero divisor,
zero dividend, overflow, OK. -/
def Obligations.FirstApplicableStatusIsReported : Prop :=
  ∀ s w rest, Spec.writesCmd s w rest → ∃ t, step s = .next t ∧
    ((∀ i, w ≠ encode i) → statusErr t = 4) ∧
    ∀ i, w = encode i →
      (operandsOk i s = false → statusErr t = 3) ∧
      (operandsOk i s = true → i ≠ .div → statusErr t = 0) ∧
      (operandsOk i s = true → i = .div →
        statusErr t =
          if Spec.valB s s.aLen.toNat = 0 then 1
          else if Spec.valA s = 0 then 0
          else if 256 ^ s.aLen.toNat ≤ Spec.quotient s then 2
          else 0)

/-! ## The commands -/

/-- R150: `ADD`, the sum modulo `256^n`, the carry in `CO`, and its failure. -/
def Obligations.AddWritesSumModulo : Prop :=
  ∀ s, (operandsOk .add s = true → exec .add s = .next (Spec.wrote s s.rBase.toNat
      (arr ((Spec.valA s + Spec.valB s s.aLen.toNat) % 256 ^ s.aLen.toNat) s.aLen.toNat)
      (16 * ((Spec.valA s + Spec.valB s s.aLen.toNat) / 256 ^ s.aLen.toNat)))) ∧
    (operandsOk .add s = false → exec .add s = .next (Spec.badOperand s))

/-- R151: `ADDX`, the exact sum in one digit more, `CO` its leading digit, and its failure. -/
def Obligations.AddxWritesExactSum : Prop :=
  ∀ s, (operandsOk .addx s = true → exec .addx s = .next (Spec.wrote s s.rBase.toNat
      (arr (Spec.valA s + Spec.valB s s.bLen.toNat) (s.aLen.toNat + 1))
      (16 * ((Spec.valA s + Spec.valB s s.bLen.toNat) / 256 ^ s.aLen.toNat)))) ∧
    (operandsOk .addx s = false → exec .addx s = .next (Spec.badOperand s))

/-- R161: `SUB` under its contract, and its failure. -/
def Obligations.SubWritesDifference : Prop :=
  ∀ s, (operandsOk .sub s = true → Spec.valB s s.aLen.toNat ≤ Spec.valA s →
      exec .sub s = .next (Spec.wrote s s.rBase.toNat
        (arr (Spec.valA s - Spec.valB s s.aLen.toNat) s.aLen.toNat) 0)) ∧
    (operandsOk .sub s = false → exec .sub s = .next (Spec.badOperand s))

/-- R162: `SUBX` under its contract, and its failure. -/
def Obligations.SubxWritesDifference : Prop :=
  ∀ s, (operandsOk .subx s = true → Spec.valB s s.bLen.toNat ≤ Spec.valA s →
      exec .subx s = .next (Spec.wrote s s.rBase.toNat
        (arr (Spec.valA s - Spec.valB s s.bLen.toNat) s.aLen.toNat) 0)) ∧
    (operandsOk .subx s = false → exec .subx s = .next (Spec.badOperand s))

/-- R163: a broken subtraction contract completes with `ERR = OK`, `BO = 1` and a draw in the result buffer, and
touches nothing else. Nothing is said of the draw's digits (log entry 13). -/
def Obligations.BrokenSubtractionDrawsOnlyItsResult : Prop :=
  ∀ s, (operandsOk .sub s = true → Spec.valA s < Spec.valB s s.aLen.toNat →
      exec .sub s = .next (Spec.wroteDraw s s.rBase.toNat s.aLen.toNat 0x20)) ∧
    (operandsOk .subx s = true → Spec.valA s < Spec.valB s s.bLen.toNat →
      exec .subx s = .next (Spec.wroteDraw s s.rBase.toNat s.aLen.toNat 0x20))

/-- R170: `MUL`, the exact product of `na + nb + 1` digits, and its failure. -/
def Obligations.MulWritesExactProduct : Prop :=
  ∀ s, (operandsOk .mul s = true → exec .mul s = .next (Spec.wrote s s.rBase.toNat
      (arr (Spec.valA s * Spec.valB s s.bLen.toNat) (s.aLen.toNat + s.bLen.toNat + 1)) 0)) ∧
    (operandsOk .mul s = false → exec .mul s = .next (Spec.badOperand s))

/-- R182: a zero divisor fails whatever the dividend, and leaves a draw in the result buffer (log entry 14). -/
def Obligations.DivByZeroComesFirst : Prop :=
  ∀ s, operandsOk .div s = true → (∀ k, k < s.aLen.toNat → dmByte s (s.bBase.toNat + k) = 0#8) →
    exec .div s = .next (Spec.wroteDraw s s.rBase.toNat s.aLen.toNat 1)

/-- R189: the closed form of `DIV` for a non-zero divisor: the truncated fixed-point quotient, or `OVERFLOW` exactly
when it does not fit. -/
def Obligations.DivWritesTruncatedQuotient : Prop :=
  ∀ s, operandsOk .div s = true → Spec.valB s s.aLen.toNat ≠ 0 →
    (Spec.valA s = 0 → exec .div s = .next (Spec.wrote s s.rBase.toNat (zeros s.aLen.toNat) 0)) ∧
    (Spec.valA s ≠ 0 → 256 ^ s.aLen.toNat ≤ Spec.quotient s →
      exec .div s = .next (Spec.wrote s s.rBase.toNat (zeros s.aLen.toNat) 2)) ∧
    (Spec.valA s ≠ 0 → Spec.quotient s < 256 ^ s.aLen.toNat →
      exec .div s = .next (Spec.wrote s s.rBase.toNat (arr (Spec.quotient s) s.aLen.toNat) 0))

/-- R232: the aligned bit pointer of a division is negative exactly when the true quotient is at least `256^I`. -/
def Obligations.OverflowIffQuotientTooLarge : Prop :=
  ∀ (a b : Digits) (k : Nat), a.length = b.length → k ≤ a.length → val a ≠ 0 → val b ≠ 0 →
    ∃ d v c, align (widen a (2 * a.length)) (widen b (2 * b.length)) = some (d, v, c) ∧
      (8 * (k : Int) - 1 + c < 0 ↔ 256 ^ k * val b ≤ val a) ∧
      (divDigits a b k = .overflow ↔ 256 ^ k * val b ≤ val a)

/-- R200: `SHIB`, the decimal array times 256 in place, the emitted digit in `RET`, and its failure. -/
def Obligations.ShibMultipliesFractionBy256 : Prop :=
  ∀ s, (operandsOk .shib s = true → exec .shib s = .next
      { Spec.wrote s s.aBase.toNat (arrIn 10 (256 * dec (operandA s) % 10 ^ s.aLen.toNat) s.aLen.toNat) 0 with
        ret := BitVec.ofNat 32 (256 * dec (operandA s) / 10 ^ s.aLen.toNat) }) ∧
    (operandsOk .shib s = false → exec .shib s = .next (Spec.badOperand s))

/-- R201: `SHID`, the base-256 array times 10 in place, the emitted digit in `RET`, and its failure. -/
def Obligations.ShidMultipliesFractionBy10 : Prop :=
  ∀ s, (operandsOk .shid s = true → exec .shid s = .next
      { Spec.wrote s s.aBase.toNat (arr (10 * Spec.valA s % 256 ^ s.aLen.toNat) s.aLen.toNat) 0 with
        ret := BitVec.ofNat 32 (10 * Spec.valA s / 256 ^ s.aLen.toNat) }) ∧
    (operandsOk .shid s = false → exec .shid s = .next (Spec.badOperand s))

/-- R40: the bound of `RET` after each command: at most 255 after `SHIB`, at most 9 after `SHID`, 0 after every other.
Which digit it is, `ShibMultipliesFractionBy256` and `ShidMultipliesFractionBy10` say. -/
def Obligations.RetBoundPerCommand : Prop :=
  ∀ i s t, exec i s = .next t →
    (i = .shib → t.ret.toNat ≤ 255) ∧ (i = .shid → t.ret.toNat ≤ 9) ∧ (i ≠ .shib → i ≠ .shid → t.ret = 0#32)

/-- R201: repeated `SHID` steps drain any base-256 fraction of `n` digits in at most `8*n` steps. -/
def Obligations.ShidDrainsEveryFraction : Prop :=
  ∀ a : Digits, (fun d => (radixStep 256 10 d).2)^[8 * a.length] a = zeros a.length

/-! ## What commands leave unchanged -/

/-- R34: no command writes a descriptor register; nor does it touch `CMD`, the parameters, what the host has still to
do or has read, or any byte of DM outside the buffer it writes. -/
def Obligations.CommandFrame : Prop :=
  ∀ i s t, exec i s = .next t →
    t.aBase = s.aBase ∧ t.aLen = s.aLen ∧ t.bBase = s.bBase ∧ t.bLen = s.bLen ∧ t.rBase = s.rBase ∧
    t.intDigits = s.intDigits ∧ t.cmd = s.cmd ∧ t.par = s.par ∧ t.agenda = s.agenda ∧ t.reads = s.reads ∧
    ∀ x, x < resultBase i s ∨ resultBase i s + resultLen i s ≤ x → dmByte t x = dmByte s x

/-- R71: what a command started by a write to `CMD` leaves in DM, by outcome. -/
def Obligations.MemoryAfterEachOutcome : Prop :=
  ∀ s w rest t, Spec.writesCmd s w rest → step s = .next t →
    (∀ i, w = encode i → ∀ x, x < resultBase i s ∨ resultBase i s + resultLen i s ≤ x → dmByte t x = dmByte s x) ∧
    (statusErr t = 4 ∨ statusErr t = 3 → ∀ x, dmByte t x = dmByte s x) ∧
    (statusErr t = 2 → ∀ k, k < s.aLen.toNat → dmByte t (s.rBase.toNat + k) = 0#8) ∧
    (statusErr t = 1 → ∀ k, k < s.aLen.toNat → dmByte t (s.rBase.toNat + k) = Config.draw s.drawNext k) ∧
    (∀ i, w = encode i → i ≠ .shib → i ≠ .shid → memRead t s.aBase.toNat s.aLen.toNat = memRead s s.aBase.toNat s.aLen.toNat ∧
      memRead t s.bBase.toNat (bufLenB i s) = memRead s s.bBase.toNat (bufLenB i s))

/-- R93, R36, R37, R39: every command leaves `BUSY` 0 and the reserved bits 0, `CO` only after an addition, `BO` only after
a subtraction, both 0 after a failure. -/
def Obligations.StatusFieldsAfterEveryCommand : Prop :=
  ∀ i s t, exec i s = .next t →
    busy t = false ∧ t.status.extractLsb' 6 25 = 0#25 ∧ statusErr t ≤ 3 ∧
    (statusCO t = true → i = .add ∨ i = .addx) ∧ (statusBO t = true → i = .sub ∨ i = .subx) ∧
    (statusErr t ≠ 0 → statusCO t = false ∧ statusBO t = false ∧ t.ret = 0#32)

/-- R274: every command terminates, for every value of the registers and of DM, and `BUSY` returns to 0. -/
def Obligations.EveryCommandCompletes : Prop :=
  ∀ s, ∃ t, runCommand s = .next t ∧ busy t = false

/-! ## What commands depend on -/

/-- R31: `CMD`, `STATUS`, `RET` and the host's side are read by no command. -/
def Obligations.NoCommandReadsOutcomesOrHistory : Prop :=
  ∀ i s t c st r ag rd, exec i s = .next t →
    exec i { s with cmd := c, status := st, ret := r, agenda := ag, reads := rd } =
      .next { t with cmd := c, agenda := ag, reads := rd }

/-- R276: apart from the draws, a command's outcome is a function of the descriptor registers and of the source
buffers. The two states have the same next draw. -/
def Obligations.OutcomeIsAFunctionOfDescriptorsAndSources : Prop :=
  ∀ i s s' t t', s.par = s'.par → s.aBase = s'.aBase → s.aLen = s'.aLen → s.bBase = s'.bBase → s.bLen = s'.bLen →
    s.rBase = s'.rBase → s.intDigits = s'.intDigits → s.drawNext = s'.drawNext →
    (∀ k, k < s.aLen.toNat → dmByte s (s.aBase.toNat + k) = dmByte s' (s.aBase.toNat + k)) →
    (∀ k, k < bufLenB i s → dmByte s (s.bBase.toNat + k) = dmByte s' (s.bBase.toNat + k)) →
    exec i s = .next t → exec i s' = .next t' →
    t.status = t'.status ∧ t.ret = t'.ret ∧
    (operandsOk i s = true → ∀ k, k < resultLen i s →
      dmByte t (resultBase i s + k) = dmByte t' (resultBase i s + k))

/-- R33: a register a command ignores has no effect on it, whatever it holds. -/
def Obligations.IgnoredRegistersHaveNoEffect : Prop :=
  ∀ i s t x, exec i s = .next t →
    (i ≠ .addx → i ≠ .subx → i ≠ .mul → exec i { s with bLen := x } = .next { t with bLen := x }) ∧
    (i ≠ .div → exec i { s with intDigits := x } = .next { t with intDigits := x }) ∧
    (i = .shib ∨ i = .shid → exec i { s with bBase := x } = .next { t with bBase := x } ∧
      exec i { s with rBase := x } = .next { t with rBase := x })

/-! ## Laws of the arithmetic -/

/-- R152 item 1: `ADD` is commutative, overflowing or not. -/
def Obligations.AddIsCommutative : Prop :=
  ∀ s t, exec .add s = .next t →
    exec .add { s with aBase := s.bBase, bBase := s.aBase } = .next { t with aBase := s.bBase, bBase := s.aBase }

/-- R152 item 3, R164 item 2: subtracting what was added gives the other addend back when nothing was carried out, and
breaks the contract when something was. -/
def Obligations.SubtractionUndoesAddition : Prop :=
  ∀ a b : Digits, a.length = b.length →
    ((addDigits a b).1 = 0 → subArrays (addDigits a b).2 b = some a) ∧
    ((addDigits a b).1 ≠ 0 → subArrays (addDigits a b).2 b = none)

/-- R164 item 4: `SUBX` undoes `ADDX`. -/
def Obligations.SubxUndoesAddx : Prop :=
  ∀ a b : Digits, b.length ≤ a.length →
    subArrays (BitVec.ofNat 8 (addDigits a (padTo a.length b)).1 :: (addDigits a (padTo a.length b)).2) b =
      some (0#8 :: a)

/-- R164 item 3: with equal lengths `SUBX` behaves exactly as `SUB`. -/
def Obligations.SubxWithEqualLengthsIsSub : Prop :=
  ∀ s, s.bLen = s.aLen → exec .subx s = exec .sub s

/-! ## The functions inside the division engine -/

/-- R121: `compare_le` is the order of values. -/
def Obligations.CompareLeIsValueOrder : Prop :=
  ∀ a b : Digits, a.length = b.length → compareLe a b = decide (val a ≤ val b)

/-- R122 to R126: `is_zero`, `clear`, `widen`, `byte_shift_right` and `bit_mask` in numbers. -/
def Obligations.ArrayPrimitivesInNumbers : Prop :=
  ∀ (a : Digits) (n m : Nat),
    (isZero a = true ↔ val a = 0) ∧ clear a = zeros a.length ∧
    (a.length ≤ m → (widen a m).length = m ∧ val (widen a m) = val a * 256 ^ (m - a.length)) ∧
    (byteShiftRight a n).length = a.length ∧ val (byteShiftRight a n) = val a / 256 ^ n ∧
    (bitMask n).toNat = if 8 ≤ n then 255 else 2 ^ n - 1

/-- R127: `bit_shift_right` is division by `2^places`. -/
def Obligations.BitShiftRightDividesByPowerOfTwo : Prop :=
  ∀ (a : Digits) (places : Nat),
    (bitShiftRight a places).length = a.length ∧ val (bitShiftRight a places) = val a / 2 ^ places

/-- R128: `set_bit` sets the bit of weight `2^(8*len - 1 - q)`, and has no effect if it is already set. -/
def Obligations.SetBitSetsOneWeight : Prop :=
  ∀ (a : Digits) (q : Nat), q < 8 * a.length → (setBit a q).length = a.length ∧
    val (setBit a q) =
      if val a / 2 ^ (8 * a.length - 1 - q) % 2 = 1 then val a else val a + 2 ^ (8 * a.length - 1 - q)

/-- R141: the closed form of `align_dividend`; and with a zero divisor no number of iterations reaches the loop's end.
`none` is the model's word for a loop that has not ended within its bound (log entry 15); here it is the answer for every
bound. -/
def Obligations.AlignDividendHalvesBelowDivisor : Prop :=
  ∀ d v : Digits, d.length = v.length →
    (val v = 0 → alignDividend d v = none ∧ ∀ (f : Nat) (x : Digits) (c : Int), alignDividendLoop v f x c = none) ∧
    (val v ≠ 0 → ∃ (d' : Digits) (h : Nat), alignDividend d v = some (d', -(h : Int)) ∧ d'.length = d.length ∧
      val d' = val d / 2 ^ h ∧ val d / 2 ^ h < val v ∧ ∀ g, g < h → val v ≤ val d / 2 ^ g)

/-- R142, R144: the closed form of `align_divisor` and `readjust`, and their count on a zero dividend. -/
def Obligations.ReadjustHalvesDownToRemainder : Prop :=
  ∀ d v : Digits, d.length = v.length → readjust d v = alignDivisor d v ∧
    ∃ (v' : Digits) (h : Nat), readjust d v = (v', h) ∧ v'.length = v.length ∧ val v' = val v / 2 ^ h ∧
      val v / 2 ^ h ≤ val d ∧ (∀ g, g < h → val d < val v / 2 ^ g) ∧ (val d = 0 → h = Nat.size (val v))

/-- R143: `align` is `align_dividend` and then `align_divisor`, with its postcondition and facts 1 to 4. "No set bit was
shifted out of the divisor" in fact 4 is that `2^h2` divides its value. -/
def Obligations.AlignBringsMagnitudesTogether : Prop :=
  ∀ d v : Digits, d.length = v.length → val v ≠ 0 →
    ∃ (d' v' : Digits) (h1 h2 : Nat) (c : Int),
      alignDividend d v = some (d', -(h1 : Int)) ∧ alignDivisor d' v = (v', h2) ∧ align d v = some (d', v', c) ∧
      c = -(h1 : Int) + (h2 : Int) ∧ val d' = val d / 2 ^ h1 ∧ val v' = val v / 2 ^ h2 ∧
      val d' < val v ∧ 1 ≤ h2 ∧ (1 ≤ h1 → h2 = 1 ∧ c = -(h1 : Int) + 1) ∧ (h1 = 0 → c = (h2 : Int) ∧ 1 ≤ c) ∧
      val v' ≤ val d' ∧ val d' < 2 * val v' + 1 ∧ (2 ^ h2 ∣ val v → val d' < 2 * val v')

/-- R188 items 1 and 2: one iteration of the division loop from the loop's invariant: the subtraction keeps its
contract, the pointer advances, and the divisor is again not above the remainder. -/
def Obligations.DivIterationKeepsContract : Prop :=
  ∀ d v : Digits, d.length = v.length → val v ≤ val d → val d < 2 * val v →
    ∃ (r v' : Digits) (h : Nat), subArrays d v = some r ∧ val r = val d - val v ∧ readjust r v = (v', h) ∧ 1 ≤ h ∧
      val v' ≤ val r ∧ (2 ^ h ∣ val v → val r < 2 * val v')

/-- R274, R188: the division engine always reaches an end: the model's bounds on its loops are never met. -/
def Obligations.DivisionAlwaysEnds : Prop :=
  ∀ (a b : Digits) (k : Nat), a.length = b.length → k ≤ a.length → divDigits a b k ≠ .unspecified

/-! ## Digit memory -/

/-- R66: `MemRead` and `MemWrite`, byte by byte. -/
def Obligations.MemReadAndMemWriteByteByByte : Prop :=
  ∀ (s : State) (a : Nat) (v : Digits) (n : Nat),
    (memRead s a n).length = n ∧ (∀ k, k < n → (memRead s a n)[k]? = some (dmByte s (a + k))) ∧
    (∀ k, k < v.length → some (dmByte { s with dm := memWrite s.dm a v } (a + k)) = v[k]?) ∧
    ∀ x, x < a ∨ a + v.length ≤ x → dmByte { s with dm := memWrite s.dm a v } x = dmByte s x

/-- Two memories in canonical form that list the same bytes are the same data (log entry 3). -/
def Obligations.CanonicalMemoriesAreEqualData : Prop :=
  ∀ m m' : Memory, m.wf → m'.wf → (∀ a, memGet m a = memGet m' a) → m = m'

/-! ## The host's side -/

/-- R32: a descriptor register holds whatever 32-bit value the host last wrote; no legality check is made on a write, and nothing else changes. -/
def Obligations.DescriptorHoldsWhatWasWritten : Prop :=
  ∀ s n v rest, busy s = false → 3 ≤ n → n ≤ 8 → s.agenda = .wr n v :: rest →
    ∃ t, step s = .next t ∧ readReg t n = v ∧ (∀ k, k ≠ n → readReg t k = readReg s k) ∧ t.dm = s.dm ∧
      t.par = s.par ∧ t.status = s.status ∧ t.dmDraw = s.dmDraw ∧ t.drawNext = s.drawNext ∧ t.reads = s.reads ∧
      t.agenda = rest

/-- R41, and the read-only registers: a write to `STATUS`, `RET` or a reserved number is ignored; a reserved number reads 0. -/
def Obligations.ReadOnlyAndReservedRegisters : Prop :=
  (∀ s n v rest, n = 1 ∨ n = 2 ∨ 9 ≤ n → s.agenda = .wr n v :: rest → step s = .next { s with agenda := rest }) ∧
    ∀ s n, 9 ≤ n → readReg s n = 0#32

/-- R268: while a command is in flight every register write is ignored, and reads see `BUSY` 1 with the previous
outcome, the previous `RET`, the word in flight and the unchanged descriptors. -/
def Obligations.RegistersWhileInFlight : Prop :=
  (∀ s n v rest, busy s = true → s.agenda = .wr n v :: rest ∨ (n = 0 ∧ s.agenda = .cmdStart v :: rest) →
    step s = .next { s with agenda := rest }) ∧
  (∀ s w rest, busy s = false → s.agenda = .cmdStart w :: rest → ∃ t, step s = .next t ∧ busy t = true ∧
    statusErr t = statusErr s ∧ statusCO t = statusCO s ∧ statusBO t = statusBO s ∧
    readReg t 1 = readReg s 1 ||| 0x80000000#32 ∧ readReg t 0 = w ∧ ∀ n, 2 ≤ n → readReg t n = readReg s n)

/-- R73: a host read changes nothing but the host's own record of what it read. -/
def Obligations.ReadsHaveNoSideEffect : Prop :=
  (∀ s n rest, s.agenda = .rd n :: rest →
    step s = .next { s with agenda := rest, reads := .reg n (readReg s n) :: s.reads }) ∧
  ∀ s a rest, busy s = false → a < s.par.dmSize → s.agenda = .ld a :: rest →
    step s = .next { s with agenda := rest, reads := .byte a (dmByte s a) :: s.reads }

/-- R43: while `BUSY = 0` the host writes digit memory freely, one byte at a time. -/
def Obligations.HostStoresOneByte : Prop :=
  ∀ s a d rest, busy s = false → a < s.par.dmSize → s.agenda = .st a d :: rest →
    ∃ t, step s = .next t ∧ dmByte t a = d ∧ (∀ x, x ≠ a → dmByte t x = dmByte s x) ∧
      (∀ n, readReg t n = readReg s n) ∧ t.agenda = rest

/-- The model stops a host that touches DM while a command is in flight, or outside DM (log entries 8 and 9; the
spec's own word for the first is "stuck", U4). -/
def Obligations.MemoryAccessOutsideProtocolStops : Prop :=
  ∀ s a d rest, s.agenda = .st a d :: rest ∨ s.agenda = .ld a :: rest →
    (busy s = true → step s = .fault .dmAccessInFlight) ∧
    (busy s = false → s.par.dmSize ≤ a → step s = .fault .noSuchDmAddress)

/-- A command whose start and completion are two moves, with register accesses of the host in between, ends as the
command that runs in one move: those accesses change nothing but the host's record (R47, R268). -/
def Obligations.InFlightAccessesChangeNothing : Prop :=
  ∀ s w ms rest, busy s = false → s.agenda = .cmdStart w :: (ms ++ .cmdFinish :: rest) →
    (∀ m ∈ ms, (∃ n v, m = .wr n v) ∨ ∃ n, m = .rd n) →
    ∃ t u : State, Sys2Proof.core.run (ms.length + 2) s = .next t ∧
      step { s with agenda := .wr 0 w :: rest } = .next u ∧ t = { u with reads := t.reads }

/-- R99: a `WAIT` reads `STATUS` until bit 31 reads 0. An idle engine ends it at the first read. With a command in flight,
`k` reads find bit 31 set, the engine completes the command, and the next read finds bit 31 clear and ends the wait.
The number `k` stands for the open duration of a command (log entry 24); the read record is the model's (log entry 10). -/
def Obligations.WaitReadsStatusUntilNotBusy : Prop :=
  ∀ s k rest, s.agenda = .wait k :: rest →
    (busy s = false → (readReg s 1).getLsbD 31 = false ∧
      step s = .next { s with agenda := rest, reads := .reg 1 (readReg s 1) :: s.reads }) ∧
    (busy s = true → (readReg s 1).getLsbD 31 = true ∧
      ∃ u : State, runCommand { s with agenda := rest } = .next u ∧ (readReg u 1).getLsbD 31 = false ∧
        Sys2Proof.core.run (k + 2) s = .next { u with
          reads := .reg 1 (readReg u 1) :: (List.replicate k (.reg 1 (readReg s 1)) ++ s.reads) })

/-- R50: only a write to `CMD` starts a command: any other move of an idle engine's host leaves `CMD`, `STATUS` and `RET` as they were. -/
def Obligations.OnlyCmdWritesStartCommands : Prop :=
  ∀ s t m rest, busy s = false → s.agenda = m :: rest → (∀ w, m ≠ .wr 0 w) → (∀ w, m ≠ .cmdStart w) → m ≠ .reset →
    step s = .next t → t.cmd = s.cmd ∧ t.status = s.status ∧ t.ret = s.ret ∧ busy t = false

/-! ## Whole-machine statements -/

/-- R10, R30: the parameters never change. -/
def Obligations.ParametersNeverChange : Prop :=
  ∀ s t, step s = .next t → t.par = s.par

/-- The invariant of Safety.lean is kept by every step from every state that meets it: digit memory stays canonical and
inside `DM`, the reserved bits of `STATUS` stay 0, and `ERR`, `CO`, `BO`, `RET` stay in agreement. -/
def Obligations.StepKeepsInvariant : Prop :=
  ∀ s t : State, s.Inv → step s = .next t → t.Inv

/-- A host that keeps to the protocol of R267 never stops the machine, however long it runs, from any state. -/
def Obligations.ProtocolHostNeverStops : Prop :=
  ∀ (k : Nat) (s : State), HostObeys s → SafeRun k s
end

