-- ==== Sys2Proof/Laws/Digits.lean ====
section
/-! SUPPORT. Digit arrays as numbers: bounds, uniqueness, and what each array function of the commands computes. -/

namespace Sys2Proof.Machine

@[simp] theorem zeros_length (n : Nat) : (zeros n).length = n := by simp [zeros]

@[simp] theorem arrIn_length (R v n : Nat) : (arrIn R v n).length = n := by
  induction n with
  | zero => rfl
  | succ n ih => simp [arrIn, ih]

@[simp] theorem valIn_nil (R : Nat) : valIn R [] = 0 := rfl

@[simp] theorem valIn_cons (R : Nat) (d : Byte) (ds : Digits) :
    valIn R (d :: ds) = d.toNat * R ^ ds.length + valIn R ds := rfl

theorem valIn_append (R : Nat) (a b : Digits) : valIn R (a ++ b) = valIn R a * R ^ b.length + valIn R b := by
  induction a with
  | nil => simp
  | cons d a ih => simp only [List.cons_append, valIn_cons, ih, List.length_append, pow_add]; ring

@[simp] theorem valIn_zeros (R n : Nat) : valIn R (zeros n) = 0 := by
  induction n with
  | zero => rfl
  | succ n ih => simpa [zeros, List.replicate_succ] using ih

/-- Every digit of an array is a digit of radix `R`. -/
def DigitsBelow (R : Nat) (a : Digits) : Prop := ∀ d ∈ a, d.toNat < R

theorem digitsBelow_256 (a : Digits) : DigitsBelow 256 a := fun d _ => d.isLt

theorem valIn_lt {R : Nat} {a : Digits} (h : DigitsBelow R a) : valIn R a < R ^ a.length := by
  induction a with
  | nil => simp
  | cons d a ih =>
    have h1 := ih fun x hx => h x (List.mem_cons_of_mem _ hx)
    have h2 : d.toNat + 1 ≤ R := h d List.mem_cons_self
    rw [valIn_cons, List.length_cons, pow_succ']
    calc d.toNat * R ^ a.length + valIn R a < (d.toNat + 1) * R ^ a.length := by rw [add_mul]; omega
      _ ≤ R * R ^ a.length := Nat.mul_le_mul_right _ h2

theorem val_lt (a : Digits) : val a < 256 ^ a.length := valIn_lt (digitsBelow_256 a)

theorem valIn_arrIn {R : Nat} (h0 : 0 < R) (hR : R ≤ 256) (v n : Nat) : valIn R (arrIn R v n) = v % R ^ n := by
  induction n with
  | zero => simp [arrIn, Nat.mod_one]
  | succ n ih =>
    have hd : v / R ^ n % R < R := Nat.mod_lt _ h0
    simp only [arrIn, valIn_cons, ih, arrIn_length, BitVec.toNat_ofNat]
    rw [Nat.mod_eq_of_lt (show v / R ^ n % R < 2 ^ 8 by omega), pow_succ, Nat.mod_mul, mul_comm, add_comm]

theorem val_arr (v n : Nat) : val (arr v n) = v % 256 ^ n := valIn_arrIn (by norm_num) (by norm_num) v n

/-- Two arrays of one length and one value are the same array. -/
theorem valIn_inj {R : Nat} {a b : Digits} (ha : DigitsBelow R a) (hb : DigitsBelow R b)
    (hl : a.length = b.length) (hv : valIn R a = valIn R b) : a = b := by
  induction a generalizing b with
  | nil => cases b <;> simp_all
  | cons x a ih =>
    cases b with
    | nil => simp at hl
    | cons y b =>
      have hl' : a.length = b.length := by simpa using hl
      have ha' : DigitsBelow R a := fun d hd => ha d (List.mem_cons_of_mem _ hd)
      have hb' : DigitsBelow R b := fun d hd => hb d (List.mem_cons_of_mem _ hd)
      have h1 := valIn_lt ha'
      have h2 := valIn_lt hb'
      rw [valIn_cons, valIn_cons, hl'] at hv
      rw [hl'] at h1
      have hxy : x.toNat = y.toNat := by
        rcases Nat.lt_trichotomy x.toNat y.toNat with h | h | h
        · nlinarith
        · exact h
        · nlinarith
      rw [hxy] at hv
      rw [BitVec.eq_of_toNat_eq hxy, ih ha' hb' hl' (by omega)]

theorem digitsBelow_arrIn {R : Nat} (h0 : 0 < R) (hR : R ≤ 256) (v n : Nat) : DigitsBelow R (arrIn R v n) := by
  induction n with
  | zero => simp [arrIn, DigitsBelow]
  | succ n ih =>
    intro d hd
    rcases List.mem_cons.1 hd with rfl | hd
    · have : v / R ^ n % R < R := Nat.mod_lt _ h0
      rw [BitVec.toNat_ofNat]; omega
    · exact ih d hd

/-- The one way to show that an array is `arrIn R v n`. -/
theorem eq_arrIn {R : Nat} (h0 : 0 < R) (hR : R ≤ 256) {a : Digits} {v n : Nat} (ha : DigitsBelow R a)
    (hl : a.length = n) (hv : valIn R a = v % R ^ n) : a = arrIn R v n :=
  valIn_inj ha (digitsBelow_arrIn h0 hR v n) (by simp [hl]) (by rw [hv, valIn_arrIn h0 hR])

theorem eq_arr {a : Digits} {v n : Nat} (hl : a.length = n) (hv : val a = v % 256 ^ n) : a = arr v n :=
  eq_arrIn (by norm_num) (by norm_num) (digitsBelow_256 a) hl hv

theorem zeros_eq_arr (n : Nat) : zeros n = arr 0 n := eq_arr (by simp) (by simp)

theorem padTo_length {n : Nat} {b : Digits} (h : b.length ≤ n) : (padTo n b).length = n := by
  simp [padTo]; omega

@[simp] theorem val_padTo (n : Nat) (b : Digits) : val (padTo n b) = val b := by
  simp [padTo, val, valIn_append]

/-! ### One digit put above an array -/

theorem digit_above {R c k v : Nat} (hR : R ≤ 256) (hv : v < R ^ k) (h0 : 0 < R) :
    (BitVec.ofNat 8 (c % R)).toNat * R ^ k + v = (c * R ^ k + v) % R ^ (k + 1) ∧
      c / R = (c * R ^ k + v) / R ^ (k + 1) := by
  have hc : c % R < R := Nat.mod_lt _ h0
  have hpos : 0 < R ^ k := Nat.pow_pos h0
  have h8 : (BitVec.ofNat 8 (c % R)).toNat = c % R := by rw [BitVec.toNat_ofNat]; omega
  have hq : (c * R ^ k + v) / R ^ k = c := by
    rw [Nat.mul_comm, Nat.mul_add_div hpos, Nat.div_eq_of_lt hv, Nat.add_zero]
  have hm : (c * R ^ k + v) % R ^ k = v := by
    rw [Nat.mul_comm, Nat.mul_add_mod, Nat.mod_eq_of_lt hv]
  constructor
  · rw [h8, pow_succ, Nat.mod_mul, hm, hq]; ring
  · rw [pow_succ, ← Nat.div_div_eq_div_mul, hq]

/-! ### Addition -/

theorem addDigits_length {a b : Digits} (h : a.length = b.length) : (addDigits a b).2.length = a.length := by
  induction a generalizing b with
  | nil => cases b <;> simp_all [addDigits]
  | cons x a ih =>
    cases b with
    | nil => simp at h
    | cons y b => simp only [addDigits, List.length_cons, ih (by simpa using h)]

/-- What `addDigits` computes: the sum modulo `256^n`, and the final carry. -/
theorem addDigits_val {a b : Digits} (h : a.length = b.length) :
    val (addDigits a b).2 = (val a + val b) % 256 ^ a.length ∧
      (addDigits a b).1 = (val a + val b) / 256 ^ a.length := by
  induction a generalizing b with
  | nil => cases b <;> simp_all [addDigits]
  | cons x a ih =>
    cases b with
    | nil => simp at h
    | cons y b =>
      have hl : a.length = b.length := by simpa using h
      obtain ⟨h1, h2⟩ := ih hl
      have hlen := addDigits_length hl
      have hv := val_lt (addDigits a b).2
      rw [hlen] at hv
      have key : val (x :: a) + val (y :: b) =
          (x.toNat + y.toNat + (addDigits a b).1) * 256 ^ a.length + val (addDigits a b).2 := by
        rw [h1, h2]
        simp only [val, valIn_cons, ← hl]
        have := Nat.div_add_mod (valIn 256 a + valIn 256 b) (256 ^ a.length)
        nlinarith
      have hd := digit_above (R := 256) (c := x.toNat + y.toNat + (addDigits a b).1) (le_refl _) hv (by norm_num)
      rw [key]
      simp only [addDigits, List.length_cons, val, valIn_cons, hlen]
      exact hd

theorem addDigits_eq {a b : Digits} (h : a.length = b.length) :
    addDigits a b = ((val a + val b) / 256 ^ a.length, arr (val a + val b) a.length) :=
  Prod.ext (addDigits_val h).2 (eq_arr (addDigits_length h) (addDigits_val h).1)

/-! ### Radix conversion -/

@[simp] theorem radixStep_length (R m : Nat) (a : Digits) : (radixStep R m a).2.length = a.length := by
  induction a with
  | nil => rfl
  | cons d a ih => simp [radixStep, ih]

theorem radixStep_below {R : Nat} (h0 : 0 < R) (hR : R ≤ 256) (m : Nat) (a : Digits) :
    DigitsBelow R (radixStep R m a).2 := by
  induction a with
  | nil => simp [radixStep, DigitsBelow]
  | cons d a ih =>
    intro x hx
    simp only [radixStep, List.mem_cons] at hx
    rcases hx with rfl | hx
    · have : (d.toNat * m + (radixStep R m a).1) % R < R := Nat.mod_lt _ h0
      rw [BitVec.toNat_ofNat]; omega
    · exact ih x hx

/-- What one conversion step computes: the array times `m`, split at the radix point. -/
theorem radixStep_val {R : Nat} (h0 : 0 < R) (hR : R ≤ 256) (m : Nat) (a : Digits) :
    valIn R (radixStep R m a).2 = m * valIn R a % R ^ a.length ∧
      (radixStep R m a).1 = m * valIn R a / R ^ a.length := by
  induction a with
  | nil => simp [radixStep]
  | cons d a ih =>
    obtain ⟨h1, h2⟩ := ih
    have hv := valIn_lt (radixStep_below h0 hR m a)
    rw [radixStep_length] at hv
    have key : m * valIn R (d :: a) =
        (d.toNat * m + (radixStep R m a).1) * R ^ a.length + valIn R (radixStep R m a).2 := by
      rw [h1, h2, valIn_cons]
      have := Nat.div_add_mod (m * valIn R a) (R ^ a.length)
      nlinarith
    have hd := digit_above (c := d.toNat * m + (radixStep R m a).1) hR hv h0
    rw [key]
    simp only [radixStep, List.length_cons, valIn_cons, radixStep_length]
    exact hd

theorem radixStep_eq {R : Nat} (h0 : 0 < R) (hR : R ≤ 256) (m : Nat) (a : Digits) :
    radixStep R m a = (m * valIn R a / R ^ a.length, arrIn R (m * valIn R a) a.length) :=
  Prod.ext (radixStep_val h0 hR m a).2
    (eq_arrIn h0 hR (radixStep_below h0 hR m a) (radixStep_length R m a) (radixStep_val h0 hR m a).1)

end Sys2Proof.Machine
end

