-- ==== Sys2Proof/Laws/Arithmetic.lean ====
section
/-! SUPPORT. Subtraction and multiplication as numbers. Their loops run from the least significant digit, so their
lemmas speak of `lval`, the value of an array written the least significant digit first. -/

namespace Sys2Proof.Machine

/-- The value of an array written the least significant digit first. -/
def lval : Digits → Nat
  | [] => 0
  | d :: ds => d.toNat + 256 * lval ds

@[simp] theorem lval_nil : lval [] = 0 := rfl

@[simp] theorem lval_cons (d : Byte) (ds : Digits) : lval (d :: ds) = d.toNat + 256 * lval ds := rfl

theorem lval_append (a b : Digits) : lval (a ++ b) = lval a + 256 ^ a.length * lval b := by
  induction a with
  | nil => simp
  | cons d a ih => simp only [List.cons_append, lval_cons, ih, List.length_cons, pow_succ]; ring

theorem lval_reverse (a : Digits) : lval a.reverse = val a := by
  induction a with
  | nil => rfl
  | cons d a ih =>
    simp only [List.reverse_cons, lval_append, ih, List.length_reverse, lval_cons, lval_nil, val, valIn_cons]; ring

theorem val_reverse (a : Digits) : val a.reverse = lval a := by
  rw [← lval_reverse, List.reverse_reverse]

theorem lval_lt (a : Digits) : lval a < 256 ^ a.length := by
  have h := val_lt a.reverse
  rwa [val_reverse, List.length_reverse] at h

/-! ### Subtraction -/

/-- The borrow walk takes one from the number, or finds it zero. -/
theorem borrowWalk_spec (w : Digits) :
    match borrowWalk w with
    | some w' => w'.length = w.length ∧ lval w' + 1 = lval w
    | none => lval w = 0 := by
  induction w with
  | nil => simp [borrowWalk]
  | cons d w ih =>
    unfold borrowWalk
    by_cases hd : d = 0#8
    · rw [if_pos hd]
      subst hd
      cases hb : borrowWalk w with
      | none => rw [hb] at ih; simp at ih ⊢; exact ih
      | some w' =>
        rw [hb] at ih
        simp only [Option.map_some, List.length_cons, lval_cons, BitVec.toNat_ofNat] at ih ⊢
        omega
    · rw [if_neg hd]
      have h1 : d.toNat ≠ 0 := fun h => hd (BitVec.eq_of_toNat_eq (by simpa using h))
      have h2 := d.isLt
      have h3 : (BitVec.ofNat 8 (d.toNat - 1)).toNat = d.toNat - 1 := by rw [BitVec.toNat_ofNat]; omega
      exact ⟨rfl, by rw [lval_cons, lval_cons, h3]; omega⟩

/-- The digit loop computes the difference, or finds the contract broken. -/
theorem subLoop_spec (b w : Digits) (h : b.length = w.length) :
    match subLoop b w with
    | some r => r.length = w.length ∧ lval r + lval b = lval w
    | none => lval w < lval b := by
  induction b generalizing w with
  | nil => cases w <;> simp_all [subLoop]
  | cons y b ih =>
    cases w with
    | nil => simp at h
    | cons x w =>
      have hl : b.length = w.length := by simpa using h
      have hx := x.isLt
      have hy := y.isLt
      unfold subLoop
      by_cases hxy : x.toNat < y.toNat
      · rw [if_pos hxy]
        have hw := borrowWalk_spec w
        cases hb : borrowWalk w with
        | none => rw [hb] at hw; simp only [lval_cons] at hw ⊢; omega
        | some w' =>
          rw [hb] at hw
          have hr := ih w' (by omega)
          cases hs : subLoop b w' with
          | none => rw [hs] at hr; simp only [hs, Option.map_none, lval_cons] at hr hw ⊢; omega
          | some r =>
            rw [hs] at hr
            simp only [hs, Option.map_some, List.length_cons, lval_cons, BitVec.toNat_ofNat] at hr hw ⊢
            omega
      · rw [if_neg hxy]
        have hr := ih w hl
        cases hs : subLoop b w with
        | none => rw [hs] at hr; simp only [Option.map_none, lval_cons] at hr ⊢; omega
        | some r =>
          rw [hs] at hr
          simp only [Option.map_some, List.length_cons, lval_cons, BitVec.toNat_ofNat] at hr ⊢
          omega

/-- What `sub_arrays` computes, for `nb <= na`: the difference under the contract, and `none` exactly when the
contract is broken. -/
theorem subArrays_eq {a b : Digits} (h : b.length ≤ a.length) :
    subArrays a b = if val b ≤ val a then some (arr (val a - val b) a.length) else none := by
  have hp : (padTo a.length b).length = a.length := padTo_length h
  have hs := subLoop_spec (padTo a.length b).reverse a.reverse (by simp [hp])
  unfold subArrays
  cases hr : subLoop (padTo a.length b).reverse a.reverse with
  | none =>
    rw [hr] at hs
    simp only [lval_reverse, val_padTo] at hs
    rw [if_neg (by omega)]; rfl
  | some r =>
    rw [hr] at hs
    simp only [lval_reverse, val_padTo, List.length_reverse] at hs
    have ha := val_lt a
    rw [if_pos (by omega), Option.map_some]
    congr 1
    apply eq_arr (by simpa using hs.1)
    rw [val_reverse, Nat.mod_eq_of_lt (by omega)]; omega

/-! ### Multiplication -/

/-- One row: the window takes in digit times array and carry. The window has one digit above the array's, which
is 0 before the row. -/
theorem mulRow_spec (y : Byte) (a lo hi : Digits) (c : Nat) (hlo : lo.length = a.length) (hc : c ≤ 255) :
    ∃ lo' : Digits, ∃ c' : Byte, mulRow y a (lo ++ 0#8 :: hi) c = lo' ++ c' :: hi ∧ lo'.length = a.length ∧
      lval lo' + 256 ^ a.length * c'.toNat = lval lo + lval a * y.toNat + c := by
  induction a generalizing lo c with
  | nil =>
    have : lo = [] := by simpa using hlo
    subst this
    refine ⟨[], BitVec.ofNat 8 c, by simp [mulRow], rfl, ?_⟩
    simp only [lval_nil, List.length_nil, BitVec.toNat_ofNat]; omega
  | cons x a ih =>
    cases lo with
    | nil => simp at hlo
    | cons t lo =>
      have hx := x.isLt
      have hy := y.isLt
      have ht := t.isLt
      have hxy : x.toNat * y.toNat ≤ 255 * 255 := Nat.mul_le_mul (by omega) (by omega)
      obtain ⟨lo', c', h1, h2, h3⟩ := ih lo ((t.toNat + x.toNat * y.toNat + c) / 256) (by simpa using hlo) (by omega)
      refine ⟨BitVec.ofNat 8 ((t.toNat + x.toNat * y.toNat + c) % 256) :: lo', c', ?_, by simp [h2], ?_⟩
      · simp [mulRow, h1]
      · have h4 := Nat.div_add_mod (t.toNat + x.toNat * y.toNat + c) 256
        have h5 : (t.toNat + x.toNat * y.toNat + c) % 256 % 2 ^ 8 = (t.toNat + x.toNat * y.toNat + c) % 256 := by omega
        rw [lval_cons, lval_cons, lval_cons, List.length_cons, BitVec.toNat_ofNat, h5, pow_succ]
        nlinarith

/-- All rows: the window ends as the sum of what it held and the product. `hi` are the digits no row has
reached yet. -/
theorem mulRows_spec (a b lo : Digits) (n : Nat) (hlo : lo.length = a.length) :
    (mulRows a b (lo ++ zeros (b.length + n))).length = a.length + b.length + n ∧
      lval (mulRows a b (lo ++ zeros (b.length + n))) = lval lo + lval a * lval b := by
  induction b generalizing lo with
  | nil =>
    have hz : lval (zeros n) = 0 := by
      have h := val_reverse (zeros n)
      rw [show (zeros n).reverse = zeros n by simp [zeros], show val (zeros n) = 0 by simp [val]] at h
      exact h.symm
    simp [mulRows, hlo, lval_append, hz]
  | cons y b ih =>
    have hz : zeros ((y :: b).length + n) = 0#8 :: zeros (b.length + n) := by
      rw [List.length_cons, show b.length + 1 + n = (b.length + n) + 1 by omega]; rfl
    obtain ⟨lo', c', h1, h2, h3⟩ := mulRow_spec y a lo (zeros (b.length + n)) 0 hlo (by omega)
    rw [hz]
    unfold mulRows
    rw [h1]
    cases lo' with
    | nil =>
      have ha : a = [] := by
        cases a with
        | nil => rfl
        | cons _ _ => simp at h2
      subst ha
      have := ih [] rfl
      simp only [List.length_nil, List.nil_append, lval_nil, Nat.zero_mul, Nat.zero_add] at this h3 ⊢
      simp only [List.length_cons, lval_cons, this]
      simp only [pow_zero, Nat.one_mul] at h3
      have hl : lval lo = 0 := by
        cases lo with
        | nil => rfl
        | cons _ _ => simp at hlo
      refine ⟨by omega, by omega⟩
    | cons d lo' =>
      have hlen : (lo' ++ [c']).length = a.length := by
        simp only [List.length_append, List.length_cons, List.length_nil] at h2 ⊢; omega
      obtain ⟨i1, i2⟩ := ih (lo' ++ [c']) hlen
      rw [List.append_assoc, List.singleton_append] at i1 i2
      simp only [List.cons_append, List.length_cons, lval_cons, i1, i2]
      refine ⟨by omega, ?_⟩
      rw [List.length_cons] at h2
      rw [lval_append, lval_cons, lval_nil]
      simp only [lval_cons, ← h2, pow_succ] at h3
      nlinarith

theorem mulDigits_spec (a b : Digits) :
    (mulDigits a b).length = a.length + b.length + 1 ∧ val (mulDigits a b) = val a * val b := by
  have hz : zeros (a.length + b.length + 1) = zeros a.length ++ zeros (b.length + 1) := by
    rw [zeros, zeros, zeros, List.replicate_append_replicate, Nat.add_assoc]
  have hz0 : lval (zeros a.length) = 0 := by
    have h := val_reverse (zeros a.length)
    rw [show (zeros a.length).reverse = zeros a.length by simp [zeros], show val (zeros a.length) = 0 by simp [val]] at h
    exact h.symm
  obtain ⟨h1, h2⟩ := mulRows_spec a.reverse b.reverse (zeros a.length) 1 (by simp)
  rw [List.length_reverse, List.length_reverse] at h1
  rw [List.length_reverse, hz0, lval_reverse, lval_reverse] at h2
  unfold mulDigits
  rw [hz, val_reverse, List.length_reverse]
  exact ⟨by simpa using h1, by simpa using h2⟩

@[simp] theorem mulDigits_length (a b : Digits) : (mulDigits a b).length = a.length + b.length + 1 :=
  (mulDigits_spec a b).1

/-- What `MUL` computes: the exact product, which never reaches the leading digit. -/
theorem mulDigits_eq (a b : Digits) : mulDigits a b = arr (val a * val b) (a.length + b.length + 1) := by
  apply eq_arr (mulDigits_length a b)
  have hlt : val a * val b < 256 ^ (a.length + b.length + 1) := by
    calc val a * val b < 256 ^ a.length * 256 ^ b.length :=
          Nat.mul_lt_mul'' (val_lt a) (val_lt b)
      _ ≤ 256 ^ (a.length + b.length + 1) := by
          rw [← pow_add]; exact Nat.pow_le_pow_right (by norm_num) (by omega)
  rw [(mulDigits_spec a b).2, Nat.mod_eq_of_lt hlt]

end Sys2Proof.Machine
end

