-- ==== Sys2Proof/Laws/State.lean ====
section
/-! SUPPORT. One lemma per field for each named update of the state, so that no later proof unfolds a record update. -/

-- Elaborated one after another: so many small theorems at once need more threads than a memory limit may allow.
set_option Elab.async false

namespace Sys2Proof.Machine

/-! ### raiseStatus -/

@[simp] theorem raiseStatus_par (e : Err) (s : State) : (raiseStatus e s).par = s.par := rfl
@[simp] theorem raiseStatus_cmd (e : Err) (s : State) : (raiseStatus e s).cmd = s.cmd := rfl
@[simp] theorem raiseStatus_status (e : Err) (s : State) : (raiseStatus e s).status = packStatus e false false := rfl
@[simp] theorem raiseStatus_ret (e : Err) (s : State) : (raiseStatus e s).ret = 0#32 := rfl
@[simp] theorem raiseStatus_aBase (e : Err) (s : State) : (raiseStatus e s).aBase = s.aBase := rfl
@[simp] theorem raiseStatus_aLen (e : Err) (s : State) : (raiseStatus e s).aLen = s.aLen := rfl
@[simp] theorem raiseStatus_bBase (e : Err) (s : State) : (raiseStatus e s).bBase = s.bBase := rfl
@[simp] theorem raiseStatus_bLen (e : Err) (s : State) : (raiseStatus e s).bLen = s.bLen := rfl
@[simp] theorem raiseStatus_rBase (e : Err) (s : State) : (raiseStatus e s).rBase = s.rBase := rfl
@[simp] theorem raiseStatus_intDigits (e : Err) (s : State) : (raiseStatus e s).intDigits = s.intDigits := rfl
@[simp] theorem raiseStatus_dm (e : Err) (s : State) : (raiseStatus e s).dm = s.dm := rfl
@[simp] theorem raiseStatus_dmDraw (e : Err) (s : State) : (raiseStatus e s).dmDraw = s.dmDraw := rfl
@[simp] theorem raiseStatus_drawNext (e : Err) (s : State) : (raiseStatus e s).drawNext = s.drawNext := rfl
@[simp] theorem raiseStatus_agenda (e : Err) (s : State) : (raiseStatus e s).agenda = s.agenda := rfl
@[simp] theorem raiseStatus_reads (e : Err) (s : State) : (raiseStatus e s).reads = s.reads := rfl

/-! ### complete -/

@[simp] theorem complete_par (s : State) (b : Nat) (r : Digits) (co bo : Bool) (v : Word) : (complete s b r co bo v).par = s.par := rfl
@[simp] theorem complete_cmd (s : State) (b : Nat) (r : Digits) (co bo : Bool) (v : Word) : (complete s b r co bo v).cmd = s.cmd := rfl
@[simp] theorem complete_status (s : State) (b : Nat) (r : Digits) (co bo : Bool) (v : Word) : (complete s b r co bo v).status = packStatus .ok co bo := rfl
@[simp] theorem complete_ret (s : State) (b : Nat) (r : Digits) (co bo : Bool) (v : Word) : (complete s b r co bo v).ret = v := rfl
@[simp] theorem complete_aBase (s : State) (b : Nat) (r : Digits) (co bo : Bool) (v : Word) : (complete s b r co bo v).aBase = s.aBase := rfl
@[simp] theorem complete_aLen (s : State) (b : Nat) (r : Digits) (co bo : Bool) (v : Word) : (complete s b r co bo v).aLen = s.aLen := rfl
@[simp] theorem complete_bBase (s : State) (b : Nat) (r : Digits) (co bo : Bool) (v : Word) : (complete s b r co bo v).bBase = s.bBase := rfl
@[simp] theorem complete_bLen (s : State) (b : Nat) (r : Digits) (co bo : Bool) (v : Word) : (complete s b r co bo v).bLen = s.bLen := rfl
@[simp] theorem complete_rBase (s : State) (b : Nat) (r : Digits) (co bo : Bool) (v : Word) : (complete s b r co bo v).rBase = s.rBase := rfl
@[simp] theorem complete_intDigits (s : State) (b : Nat) (r : Digits) (co bo : Bool) (v : Word) : (complete s b r co bo v).intDigits = s.intDigits := rfl
@[simp] theorem complete_dm (s : State) (b : Nat) (r : Digits) (co bo : Bool) (v : Word) : (complete s b r co bo v).dm = memWrite s.dm b r := rfl
@[simp] theorem complete_dmDraw (s : State) (b : Nat) (r : Digits) (co bo : Bool) (v : Word) : (complete s b r co bo v).dmDraw = s.dmDraw := rfl
@[simp] theorem complete_drawNext (s : State) (b : Nat) (r : Digits) (co bo : Bool) (v : Word) : (complete s b r co bo v).drawNext = s.drawNext := rfl
@[simp] theorem complete_agenda (s : State) (b : Nat) (r : Digits) (co bo : Bool) (v : Word) : (complete s b r co bo v).agenda = s.agenda := rfl
@[simp] theorem complete_reads (s : State) (b : Nat) (r : Digits) (co bo : Bool) (v : Word) : (complete s b r co bo v).reads = s.reads := rfl

/-! ### raiseWith -/

@[simp] theorem raiseWith_par (e : Err) (b : Nat) (r : Digits) (s : State) : (raiseWith e b r s).par = s.par := rfl
@[simp] theorem raiseWith_cmd (e : Err) (b : Nat) (r : Digits) (s : State) : (raiseWith e b r s).cmd = s.cmd := rfl
@[simp] theorem raiseWith_status (e : Err) (b : Nat) (r : Digits) (s : State) : (raiseWith e b r s).status = packStatus e false false := rfl
@[simp] theorem raiseWith_ret (e : Err) (b : Nat) (r : Digits) (s : State) : (raiseWith e b r s).ret = 0#32 := rfl
@[simp] theorem raiseWith_aBase (e : Err) (b : Nat) (r : Digits) (s : State) : (raiseWith e b r s).aBase = s.aBase := rfl
@[simp] theorem raiseWith_aLen (e : Err) (b : Nat) (r : Digits) (s : State) : (raiseWith e b r s).aLen = s.aLen := rfl
@[simp] theorem raiseWith_bBase (e : Err) (b : Nat) (r : Digits) (s : State) : (raiseWith e b r s).bBase = s.bBase := rfl
@[simp] theorem raiseWith_bLen (e : Err) (b : Nat) (r : Digits) (s : State) : (raiseWith e b r s).bLen = s.bLen := rfl
@[simp] theorem raiseWith_rBase (e : Err) (b : Nat) (r : Digits) (s : State) : (raiseWith e b r s).rBase = s.rBase := rfl
@[simp] theorem raiseWith_intDigits (e : Err) (b : Nat) (r : Digits) (s : State) : (raiseWith e b r s).intDigits = s.intDigits := rfl
@[simp] theorem raiseWith_dm (e : Err) (b : Nat) (r : Digits) (s : State) : (raiseWith e b r s).dm = memWrite s.dm b r := rfl
@[simp] theorem raiseWith_dmDraw (e : Err) (b : Nat) (r : Digits) (s : State) : (raiseWith e b r s).dmDraw = s.dmDraw := rfl
@[simp] theorem raiseWith_drawNext (e : Err) (b : Nat) (r : Digits) (s : State) : (raiseWith e b r s).drawNext = s.drawNext := rfl
@[simp] theorem raiseWith_agenda (e : Err) (b : Nat) (r : Digits) (s : State) : (raiseWith e b r s).agenda = s.agenda := rfl
@[simp] theorem raiseWith_reads (e : Err) (b : Nat) (r : Digits) (s : State) : (raiseWith e b r s).reads = s.reads := rfl

/-! ### useDraw -/

@[simp] theorem useDraw_par (s : State) : (useDraw s).par = s.par := rfl
@[simp] theorem useDraw_cmd (s : State) : (useDraw s).cmd = s.cmd := rfl
@[simp] theorem useDraw_status (s : State) : (useDraw s).status = s.status := rfl
@[simp] theorem useDraw_ret (s : State) : (useDraw s).ret = s.ret := rfl
@[simp] theorem useDraw_aBase (s : State) : (useDraw s).aBase = s.aBase := rfl
@[simp] theorem useDraw_aLen (s : State) : (useDraw s).aLen = s.aLen := rfl
@[simp] theorem useDraw_bBase (s : State) : (useDraw s).bBase = s.bBase := rfl
@[simp] theorem useDraw_bLen (s : State) : (useDraw s).bLen = s.bLen := rfl
@[simp] theorem useDraw_rBase (s : State) : (useDraw s).rBase = s.rBase := rfl
@[simp] theorem useDraw_intDigits (s : State) : (useDraw s).intDigits = s.intDigits := rfl
@[simp] theorem useDraw_dm (s : State) : (useDraw s).dm = s.dm := rfl
@[simp] theorem useDraw_dmDraw (s : State) : (useDraw s).dmDraw = s.dmDraw := rfl
@[simp] theorem useDraw_drawNext (s : State) : (useDraw s).drawNext = s.drawNext + 1 := rfl
@[simp] theorem useDraw_agenda (s : State) : (useDraw s).agenda = s.agenda := rfl
@[simp] theorem useDraw_reads (s : State) : (useDraw s).reads = s.reads := rfl

/-! ### startCmd -/

@[simp] theorem startCmd_par (w : Word) (s : State) : (startCmd w s).par = s.par := rfl
@[simp] theorem startCmd_cmd (w : Word) (s : State) : (startCmd w s).cmd = w := rfl
@[simp] theorem startCmd_status (w : Word) (s : State) : (startCmd w s).status = setBusy s.status := rfl
@[simp] theorem startCmd_ret (w : Word) (s : State) : (startCmd w s).ret = s.ret := rfl
@[simp] theorem startCmd_aBase (w : Word) (s : State) : (startCmd w s).aBase = s.aBase := rfl
@[simp] theorem startCmd_aLen (w : Word) (s : State) : (startCmd w s).aLen = s.aLen := rfl
@[simp] theorem startCmd_bBase (w : Word) (s : State) : (startCmd w s).bBase = s.bBase := rfl
@[simp] theorem startCmd_bLen (w : Word) (s : State) : (startCmd w s).bLen = s.bLen := rfl
@[simp] theorem startCmd_rBase (w : Word) (s : State) : (startCmd w s).rBase = s.rBase := rfl
@[simp] theorem startCmd_intDigits (w : Word) (s : State) : (startCmd w s).intDigits = s.intDigits := rfl
@[simp] theorem startCmd_dm (w : Word) (s : State) : (startCmd w s).dm = s.dm := rfl
@[simp] theorem startCmd_dmDraw (w : Word) (s : State) : (startCmd w s).dmDraw = s.dmDraw := rfl
@[simp] theorem startCmd_drawNext (w : Word) (s : State) : (startCmd w s).drawNext = s.drawNext := rfl
@[simp] theorem startCmd_agenda (w : Word) (s : State) : (startCmd w s).agenda = s.agenda := rfl
@[simp] theorem startCmd_reads (w : Word) (s : State) : (startCmd w s).reads = s.reads := rfl

/-! ### withAgenda -/

@[simp] theorem withAgenda_par (s : State) (l : List Move) : (withAgenda s l).par = s.par := rfl
@[simp] theorem withAgenda_cmd (s : State) (l : List Move) : (withAgenda s l).cmd = s.cmd := rfl
@[simp] theorem withAgenda_status (s : State) (l : List Move) : (withAgenda s l).status = s.status := rfl
@[simp] theorem withAgenda_ret (s : State) (l : List Move) : (withAgenda s l).ret = s.ret := rfl
@[simp] theorem withAgenda_aBase (s : State) (l : List Move) : (withAgenda s l).aBase = s.aBase := rfl
@[simp] theorem withAgenda_aLen (s : State) (l : List Move) : (withAgenda s l).aLen = s.aLen := rfl
@[simp] theorem withAgenda_bBase (s : State) (l : List Move) : (withAgenda s l).bBase = s.bBase := rfl
@[simp] theorem withAgenda_bLen (s : State) (l : List Move) : (withAgenda s l).bLen = s.bLen := rfl
@[simp] theorem withAgenda_rBase (s : State) (l : List Move) : (withAgenda s l).rBase = s.rBase := rfl
@[simp] theorem withAgenda_intDigits (s : State) (l : List Move) : (withAgenda s l).intDigits = s.intDigits := rfl
@[simp] theorem withAgenda_dm (s : State) (l : List Move) : (withAgenda s l).dm = s.dm := rfl
@[simp] theorem withAgenda_dmDraw (s : State) (l : List Move) : (withAgenda s l).dmDraw = s.dmDraw := rfl
@[simp] theorem withAgenda_drawNext (s : State) (l : List Move) : (withAgenda s l).drawNext = s.drawNext := rfl
@[simp] theorem withAgenda_agenda (s : State) (l : List Move) : (withAgenda s l).agenda = l := rfl
@[simp] theorem withAgenda_reads (s : State) (l : List Move) : (withAgenda s l).reads = s.reads := rfl

/-! ### aboutToWriteCmd -/

@[simp] theorem aboutToWriteCmd_par (w : Word) (s : State) : (aboutToWriteCmd w s).par = s.par := rfl
@[simp] theorem aboutToWriteCmd_cmd (w : Word) (s : State) : (aboutToWriteCmd w s).cmd = s.cmd := rfl
@[simp] theorem aboutToWriteCmd_status (w : Word) (s : State) : (aboutToWriteCmd w s).status = clearBusy s.status := rfl
@[simp] theorem aboutToWriteCmd_ret (w : Word) (s : State) : (aboutToWriteCmd w s).ret = s.ret := rfl
@[simp] theorem aboutToWriteCmd_aBase (w : Word) (s : State) : (aboutToWriteCmd w s).aBase = s.aBase := rfl
@[simp] theorem aboutToWriteCmd_aLen (w : Word) (s : State) : (aboutToWriteCmd w s).aLen = s.aLen := rfl
@[simp] theorem aboutToWriteCmd_bBase (w : Word) (s : State) : (aboutToWriteCmd w s).bBase = s.bBase := rfl
@[simp] theorem aboutToWriteCmd_bLen (w : Word) (s : State) : (aboutToWriteCmd w s).bLen = s.bLen := rfl
@[simp] theorem aboutToWriteCmd_rBase (w : Word) (s : State) : (aboutToWriteCmd w s).rBase = s.rBase := rfl
@[simp] theorem aboutToWriteCmd_intDigits (w : Word) (s : State) : (aboutToWriteCmd w s).intDigits = s.intDigits := rfl
@[simp] theorem aboutToWriteCmd_dm (w : Word) (s : State) : (aboutToWriteCmd w s).dm = s.dm := rfl
@[simp] theorem aboutToWriteCmd_dmDraw (w : Word) (s : State) : (aboutToWriteCmd w s).dmDraw = s.dmDraw := rfl
@[simp] theorem aboutToWriteCmd_drawNext (w : Word) (s : State) : (aboutToWriteCmd w s).drawNext = s.drawNext := rfl
@[simp] theorem aboutToWriteCmd_agenda (w : Word) (s : State) : (aboutToWriteCmd w s).agenda = .wr 0 w :: s.agenda := rfl
@[simp] theorem aboutToWriteCmd_reads (w : Word) (s : State) : (aboutToWriteCmd w s).reads = s.reads := rfl

/-! ### applyReset -/

@[simp] theorem applyReset_par (s : State) : (applyReset s).par = s.par := rfl
@[simp] theorem applyReset_cmd (s : State) : (applyReset s).cmd = 0#32 := rfl
@[simp] theorem applyReset_status (s : State) : (applyReset s).status = 0#32 := rfl
@[simp] theorem applyReset_ret (s : State) : (applyReset s).ret = 0#32 := rfl
@[simp] theorem applyReset_aBase (s : State) : (applyReset s).aBase = 0#32 := rfl
@[simp] theorem applyReset_aLen (s : State) : (applyReset s).aLen = 0#32 := rfl
@[simp] theorem applyReset_bBase (s : State) : (applyReset s).bBase = 0#32 := rfl
@[simp] theorem applyReset_bLen (s : State) : (applyReset s).bLen = 0#32 := rfl
@[simp] theorem applyReset_rBase (s : State) : (applyReset s).rBase = 0#32 := rfl
@[simp] theorem applyReset_intDigits (s : State) : (applyReset s).intDigits = 0#32 := rfl
@[simp] theorem applyReset_dm (s : State) : (applyReset s).dm = [] := rfl
@[simp] theorem applyReset_dmDraw (s : State) : (applyReset s).dmDraw = s.drawNext := rfl
@[simp] theorem applyReset_drawNext (s : State) : (applyReset s).drawNext = s.drawNext + 1 := rfl
@[simp] theorem applyReset_agenda (s : State) : (applyReset s).agenda = s.agenda := rfl
@[simp] theorem applyReset_reads (s : State) : (applyReset s).reads = s.reads := rfl

/-! ### writeReg: it never touches anything but its one descriptor register -/

@[simp] theorem writeReg_par (s : State) (n : Nat) (v : Word) : (writeReg s n v).par = s.par := by
  unfold writeReg; split <;> rfl
@[simp] theorem writeReg_cmd (s : State) (n : Nat) (v : Word) : (writeReg s n v).cmd = s.cmd := by
  unfold writeReg; split <;> rfl
@[simp] theorem writeReg_status (s : State) (n : Nat) (v : Word) : (writeReg s n v).status = s.status := by
  unfold writeReg; split <;> rfl
@[simp] theorem writeReg_ret (s : State) (n : Nat) (v : Word) : (writeReg s n v).ret = s.ret := by
  unfold writeReg; split <;> rfl
@[simp] theorem writeReg_dm (s : State) (n : Nat) (v : Word) : (writeReg s n v).dm = s.dm := by
  unfold writeReg; split <;> rfl
@[simp] theorem writeReg_dmDraw (s : State) (n : Nat) (v : Word) : (writeReg s n v).dmDraw = s.dmDraw := by
  unfold writeReg; split <;> rfl
@[simp] theorem writeReg_drawNext (s : State) (n : Nat) (v : Word) : (writeReg s n v).drawNext = s.drawNext := by
  unfold writeReg; split <;> rfl
@[simp] theorem writeReg_agenda (s : State) (n : Nat) (v : Word) : (writeReg s n v).agenda = s.agenda := by
  unfold writeReg; split <;> rfl
@[simp] theorem writeReg_reads (s : State) (n : Nat) (v : Word) : (writeReg s n v).reads = s.reads := by
  unfold writeReg; split <;> rfl

end Sys2Proof.Machine
end

