-- ==== Sys2Proof/Laws/Flags.lean ====
section
/-! SUPPORT. The fields of `STATUS` after a completion, after a command's start and after `BUSY` is cleared. -/

namespace Sys2Proof.Machine

/-- The reserved bits 30:6 of a status word. -/
abbrev reservedBits (w : Word) : BitVec 25 := w.extractLsb' 6 25

/-! ### A packed status word -/

theorem packStatus_err (e : Err) (co bo : Bool) : ((packStatus e co bo).extractLsb' 0 4).toNat = errCode e := by
  cases e <;> cases co <;> cases bo <;> decide

theorem packStatus_CO (e : Err) (co bo : Bool) : (packStatus e co bo).getLsbD 4 = co := by
  cases e <;> cases co <;> cases bo <;> decide

theorem packStatus_BO (e : Err) (co bo : Bool) : (packStatus e co bo).getLsbD 5 = bo := by
  cases e <;> cases co <;> cases bo <;> decide

theorem packStatus_busy (e : Err) (co bo : Bool) : (packStatus e co bo).getLsbD 31 = false := by
  cases e <;> cases co <;> cases bo <;> decide

theorem packStatus_reserved (e : Err) (co bo : Bool) : reservedBits (packStatus e co bo) = 0#25 := by
  cases e <;> cases co <;> cases bo <;> decide

/-- The fields of a state whose `STATUS` is a packed word. -/
theorem fields_of_packStatus {s : State} {e : Err} {co bo : Bool} (h : s.status = packStatus e co bo) :
    statusErr s = errCode e ∧ statusCO s = co ∧ statusBO s = bo ∧ busy s = false ∧ reservedBits s.status = 0#25 := by
  simp only [statusErr, statusCO, statusBO, busy, h]
  exact ⟨packStatus_err .., packStatus_CO .., packStatus_BO .., packStatus_busy .., packStatus_reserved ..⟩

/-! ### Setting and clearing BUSY -/

theorem setBusy_low (w : Word) (i : Nat) (h : i < 31) : (setBusy w).getLsbD i = w.getLsbD i := by
  have h0 : (0x80000000#32).getLsbD i = false := by
    rw [BitVec.getLsbD_ofNat, show (0x80000000 : Nat) = 2 ^ 31 by norm_num, Nat.testBit_two_pow_of_ne (by omega)]
    simp
  simp only [setBusy, BitVec.getLsbD_or, h0, Bool.or_false]

@[simp] theorem busy_startCmd (w : Word) (s : State) : busy (startCmd w s) = true := by
  simp [busy, startCmd, setBusy]

@[simp] theorem statusCO_startCmd (w : Word) (s : State) : statusCO (startCmd w s) = statusCO s :=
  setBusy_low s.status 4 (by omega)

@[simp] theorem statusBO_startCmd (w : Word) (s : State) : statusBO (startCmd w s) = statusBO s :=
  setBusy_low s.status 5 (by omega)

theorem setBusy_extract (w : Word) (lo n : Nat) (h : lo + n ≤ 31) :
    (setBusy w).extractLsb' lo n = w.extractLsb' lo n := by
  apply BitVec.eq_of_getLsbD_eq
  intro i hi
  simp only [BitVec.getLsbD_extractLsb', hi, decide_true, Bool.true_and]
  exact setBusy_low w _ (by omega)

@[simp] theorem statusErr_startCmd (w : Word) (s : State) : statusErr (startCmd w s) = statusErr s := by
  simp only [statusErr, startCmd_status, setBusy_extract s.status 0 4 (by omega)]

@[simp] theorem reservedBits_setBusy (w : Word) : reservedBits (setBusy w) = reservedBits w :=
  setBusy_extract w 6 25 (by omega)

@[simp] theorem busy_aboutToWriteCmd (w : Word) (s : State) : busy (aboutToWriteCmd w s) = false := by
  simp [busy, aboutToWriteCmd, clearBusy]

end Sys2Proof.Machine
end

