-- ==== Sys2Proof/Laws/Memory.lean ====
section
/-! SUPPORT. Digit memory: read after write, frames, and that every operation keeps the canonical form. -/

namespace Sys2Proof.Machine

theorem memGet_memPut (m : Memory) (a x : Nat) (v : Byte) :
    memGet (memPut m a v) x = if x = a then some v else memGet m x := by
  induction m with
  | nil => simp [memPut, memGet]
  | cons c m ih =>
    obtain ⟨b, w⟩ := c
    unfold memPut
    split
    · simp only [memGet]
    · split
      · subst_vars; simp only [memGet]; split <;> simp_all
      · simp only [memGet, ih]; split <;> split <;> simp_all

@[simp] theorem memGet_memPut_same (m : Memory) (a : Nat) (v : Byte) : memGet (memPut m a v) a = some v := by
  simp [memGet_memPut]

theorem memGet_memPut_other (m : Memory) {a x : Nat} (v : Byte) (h : x ≠ a) : memGet (memPut m a v) x = memGet m x := by
  simp [memGet_memPut, h]

theorem memGet_memWrite (m : Memory) (a x : Nat) (ds : Digits) :
    memGet (memWrite m a ds) x = if a ≤ x ∧ x < a + ds.length then ds[x - a]? else memGet m x := by
  induction ds generalizing m a with
  | nil => simp [memWrite, show ¬(a ≤ x ∧ x < a) by omega]
  | cons d ds ih =>
    simp only [memWrite, ih, memGet_memPut, List.length_cons]
    by_cases h : x = a
    · subst h; simp
    · by_cases h2 : a + 1 ≤ x ∧ x < a + 1 + ds.length
      · have : x - a = (x - (a + 1)) + 1 := by omega
        rw [if_pos h2, if_pos (by omega), this, List.getElem?_cons_succ]
      · rw [if_neg h2, if_neg h, if_neg (by omega)]

theorem memGet_memWrite_outside (m : Memory) {a x : Nat} (ds : Digits) (h : x < a ∨ a + ds.length ≤ x) :
    memGet (memWrite m a ds) x = memGet m x := by
  rw [memGet_memWrite, if_neg (by omega)]

/-! ### Addresses listed after a write -/

theorem mem_memPut {m : Memory} {a : Nat} {v : Byte} {c : Host.Cell} (h : c ∈ memPut m a v) : c = (a, v) ∨ c ∈ m := by
  induction m with
  | nil => simpa [memPut] using h
  | cons d m ih =>
    obtain ⟨b, w⟩ := d
    unfold memPut at h
    split at h
    · simpa using h
    · split at h
      · simp only [List.mem_cons] at h ⊢; tauto
      · simp only [List.mem_cons] at h ⊢
        rcases h with h | h
        · exact .inr (.inl h)
        · rcases ih h with h | h
          · exact .inl h
          · exact .inr (.inr h)

theorem memPut_wf {m : Memory} (h : m.wf) (a : Nat) (v : Byte) : (memPut m a v).wf := by
  induction m with
  | nil => simp [memPut, Memory.wf]
  | cons c m ih =>
    obtain ⟨b, w⟩ := c
    simp only [Memory.wf, List.map_cons, List.pairwise_cons, List.mem_map, forall_exists_index, and_imp,
      forall_apply_eq_imp_iff₂] at h ih ⊢
    unfold memPut
    split
    · rename_i hab
      simp only [List.map_cons, List.pairwise_cons, List.mem_cons, List.mem_map]
      refine ⟨?_, ?_, h.2⟩
      · rintro x (rfl | ⟨c, hc, rfl⟩)
        · exact hab
        · exact lt_trans hab (h.1 c hc)
      · rintro x ⟨c, hc, rfl⟩; exact h.1 c hc
    · split
      · subst_vars
        simp only [List.map_cons, List.pairwise_cons, List.mem_map]
        exact ⟨by rintro x ⟨c, hc, rfl⟩; exact h.1 c hc, h.2⟩
      · simp only [List.map_cons, List.pairwise_cons, List.mem_map]
        refine ⟨?_, ih h.2⟩
        rintro x ⟨c, hc, rfl⟩
        rcases mem_memPut hc with rfl | hc
        · show b < a; omega
        · exact h.1 c hc

theorem memWrite_wf {m : Memory} (h : m.wf) (a : Nat) (ds : Digits) : (memWrite m a ds).wf := by
  induction ds generalizing m a with
  | nil => exact h
  | cons d ds ih => exact ih (memPut_wf h a d) (a + 1)

theorem memInside_memPut {p : Params} {m : Memory} (h : memInside p m = true) {a : Nat} (ha : a < p.dmSize) (v : Byte) :
    memInside p (memPut m a v) = true := by
  simp only [memInside, List.all_eq_true, decide_eq_true_eq] at h ⊢
  intro c hc
  rcases mem_memPut hc with rfl | hc
  · exact ha
  · exact h c hc

theorem memInside_memWrite {p : Params} {m : Memory} (h : memInside p m = true) {a : Nat} (ds : Digits)
    (ha : a + ds.length ≤ p.dmSize) : memInside p (memWrite m a ds) = true := by
  induction ds generalizing m a with
  | nil => exact h
  | cons d ds ih =>
    rw [List.length_cons] at ha
    exact ih (memInside_memPut h (by omega) d) (by omega)

/-! ### Reading arrays -/

@[simp] theorem memRead_length (s : State) (a n : Nat) : (memRead s a n).length = n := by
  induction n generalizing a with
  | zero => rfl
  | succ n ih => simp [memRead, ih]

theorem memRead_getElem (s : State) (a n i : Nat) (h : i < (memRead s a n).length) :
    (memRead s a n)[i] = dmByte s (a + i) := by
  induction n generalizing a i with
  | zero => simp at h
  | succ n ih =>
    cases i with
    | zero => simp [memRead]
    | succ i =>
      simp only [memRead, List.getElem_cons_succ]
      rw [ih (a + 1) i]
      congr 1; omega

/-- An array read depends only on the bytes of its buffer. -/
theorem memRead_congr {s t : State} {a n : Nat} (h : ∀ x, a ≤ x → x < a + n → dmByte s x = dmByte t x) :
    memRead s a n = memRead t a n := by
  induction n generalizing a with
  | zero => rfl
  | succ n ih =>
    simp only [memRead]
    rw [h a (le_refl a) (by omega), ih fun x h1 h2 => h x (by omega) (by omega)]

theorem dmByte_complete (s : State) (b : Nat) (r : Digits) (co bo : Bool) (v : Word) (x : Nat) :
    dmByte (complete s b r co bo v) x = if h : b ≤ x ∧ x < b + r.length then r[x - b] else dmByte s x := by
  simp only [dmByte, complete_dm, complete_dmDraw, memGet_memWrite]
  split
  · rename_i h
    rw [List.getElem?_eq_getElem (by omega)]; rfl
  · rfl

end Sys2Proof.Machine
end

