-- ==== Sys2Proof/Laws/Operands.lean ====
section
/-! SUPPORT. Each check of the model as the proposition it decides. -/

namespace Sys2Proof.Machine

theorem inRange_iff (p : Params) (b n : Nat) : inRange p b n = true ↔ b + n ≤ p.dmSize := by simp [inRange]

theorem sharesByte_iff (b1 n1 b2 n2 : Nat) : sharesByte b1 n1 b2 n2 = true ↔ b1 < b2 + n2 ∧ b2 < b1 + n1 := by
  simp [sharesByte]

theorem validALen_iff (s : State) : validALen s = true ↔ 1 ≤ s.aLen.toNat ∧ s.aLen.toNat ≤ s.par.maxLen := by
  simp [validALen]

theorem validBLen_iff (s : State) : validBLen s = true ↔ 1 ≤ s.bLen.toNat ∧ s.bLen.toNat ≤ s.par.maxLen := by
  simp [validBLen]

theorem validOrder_iff (s : State) : validOrder s = true ↔ s.bLen.toNat ≤ s.aLen.toNat := by simp [validOrder]

theorem validIntDigits_iff (s : State) : validIntDigits s = true ↔ s.intDigits.toNat ≤ s.aLen.toNat := by
  simp [validIntDigits]

theorem validRangeA_iff (s : State) : validRangeA s = true ↔ s.aBase.toNat + s.aLen.toNat ≤ s.par.dmSize :=
  inRange_iff ..

theorem validRanges_iff (i : Instr) (s : State) :
    validRanges i s = true ↔ s.aBase.toNat + s.aLen.toNat ≤ s.par.dmSize ∧ s.bBase.toNat + bufLenB i s ≤ s.par.dmSize ∧
      s.rBase.toNat + resultLen i s ≤ s.par.dmSize := by
  simp only [validRanges, Bool.and_eq_true, inRange_iff, and_assoc]

theorem validDisjoint_iff (i : Instr) (s : State) :
    validDisjoint i s = true ↔
      ¬(s.rBase.toNat < s.aBase.toNat + s.aLen.toNat ∧ s.aBase.toNat < s.rBase.toNat + resultLen i s) ∧
      ¬(s.rBase.toNat < s.bBase.toNat + bufLenB i s ∧ s.bBase.toNat < s.rBase.toNat + resultLen i s) := by
  simp only [validDisjoint, Bool.and_eq_true, Bool.not_eq_true', ← Bool.not_eq_true, sharesByte_iff]

theorem validDecimal_iff (s : State) : validDecimal s = true ↔ ∀ d ∈ operandA s, d.toNat ≤ 9 := by
  simp only [validDecimal, List.all_eq_true, decide_eq_true_eq]

/-- Operand validation of each command, item by item (the table of R238). -/
theorem operandsOk_iff (i : Instr) (s : State) :
    operandsOk i s = true ↔
      match i with
      | .add => validALen s = true ∧ validRanges .add s = true ∧ validDisjoint .add s = true
      | .addx => validALen s = true ∧ ((validBLen s = true ∧ validOrder s = true) ∧ validRanges .addx s = true) ∧
          validDisjoint .addx s = true
      | .sub => validALen s = true ∧ validRanges .sub s = true ∧ validDisjoint .sub s = true
      | .subx => validALen s = true ∧ ((validBLen s = true ∧ validOrder s = true) ∧ validRanges .subx s = true) ∧
          validDisjoint .subx s = true
      | .mul => validALen s = true ∧ (validBLen s = true ∧ validRanges .mul s = true) ∧ validDisjoint .mul s = true
      | .div => validALen s = true ∧ (validIntDigits s = true ∧ validRanges .div s = true) ∧ validDisjoint .div s = true
      | .shib => validALen s = true ∧ validRangeA s = true ∧ validDecimal s = true
      | .shid => validALen s = true ∧ validRangeA s = true := by
  cases i <;> simp only [operandsOk, Bool.and_eq_true]

theorem memInside_iff (p : Params) (m : Memory) : memInside p m = true ↔ ∀ c ∈ m, c.1 < p.dmSize := by
  simp only [memInside, List.all_eq_true, decide_eq_true_eq]

theorem outcomeSound_iff (s : State) :
    outcomeSound s = true ↔
      statusErr s ≤ 4 ∧ (statusErr s = 0 ∨ statusCO s = false ∧ statusBO s = false ∧ s.ret = 0#32) ∧
        ¬(statusCO s = true ∧ statusBO s = true) ∧ (statusCO s = true ∨ statusBO s = true → s.ret = 0#32) ∧
        s.ret.toNat ≤ 255 := by
  unfold outcomeSound
  generalize statusErr s = e
  cases statusCO s <;> cases statusBO s <;> simp [and_assoc]

theorem paramsWf_iff (p : Params) :
    p.wf = true ↔ 1 ≤ p.maxLen ∧ p.maxLen ≤ 2 ^ 32 - 1 ∧ 1 ≤ p.dmSize ∧ p.dmSize ≤ 2 ^ 32 := by
  simp [Params.wf, and_assoc]

end Sys2Proof.Machine
end

