-- ==== Sys2Proof/Laws/Exec.lean ====
section
/-! SUPPORT. What a command can do, said once: its failure, its completion, and the shape of every next state. -/

namespace Sys2Proof.Machine

/-! ### Lengths of the results -/

@[simp] theorem operandA_length (s : State) : (operandA s).length = s.aLen.toNat := memRead_length ..

@[simp] theorem operandB_length (i : Instr) (s : State) : (operandB i s).length = bufLenB i s := memRead_length ..

@[simp] theorem drawDigits_length (s : State) (n : Nat) : (drawDigits s n).length = n := by simp [drawDigits]

@[simp] theorem setBit_length (a : Digits) (q : Nat) : (setBit a q).length = a.length := by simp [setBit]

@[simp] theorem clear_length (a : Digits) : (clear a).length = a.length := by simp [clear]

theorem divLoop_length (f : Nat) (r d v : Digits) (p : Nat) {q : Digits} (h : divLoop f r d v p = some q) :
    q.length = r.length := by
  induction f generalizing r d v p with
  | zero =>
    unfold divLoop at h
    split at h
    · cases h
    · cases h; rfl
  | succ f ih =>
    unfold divLoop at h
    split at h
    · split at h
      · cases h
      · have := ih _ _ _ _ h; simpa using this
    · cases h; rfl

theorem divDigits_length {a b : Digits} {k : Nat} {q : Digits} (h : divDigits a b k = .quotient q) :
    q.length = a.length := by
  unfold divDigits at h
  split at h
  · cases h
  · split at h
    · cases h; simp
    · split at h
      · cases h
      · split at h
        · cases h
        · split at h
          · cases h
          · cases h
            rename_i hq
            simpa using divLoop_length _ _ _ _ _ hq

/-! ### Validation -/

/-- The items every command has in common. -/
theorem operandsOk_base {i : Instr} {s : State} (h : operandsOk i s = true) :
    1 ≤ s.aLen.toNat ∧ s.aLen.toNat ≤ s.par.maxLen ∧ s.aBase.toNat + s.aLen.toNat ≤ s.par.dmSize ∧
      resultBase i s + resultLen i s ≤ s.par.dmSize := by
  rw [operandsOk_iff] at h
  cases i <;> simp only [validALen_iff, validRanges_iff, validRangeA_iff] at h <;>
    simp only [resultBase, resultLen] at h ⊢ <;> omega

/-- The differing-length forms have the shorter operand second. -/
theorem operandsOk_order {i : Instr} {s : State} (h : operandsOk i s = true) (hi : i = .addx ∨ i = .subx) :
    s.bLen.toNat ≤ s.aLen.toNat := by
  rcases hi with rfl | rfl <;> simp_all [operandsOk, validOrder]

/-- A command whose operands fail validation raises `BAD_OPERAND` and does nothing else (R233, R240). -/
theorem exec_bad {i : Instr} {s : State} (h : operandsOk i s = false) :
    exec i s = .next (raiseStatus .badOperand s) := by
  cases i <;> simp [exec, execAdd, execAddx, execSub, execSubx, execMul, execDiv, execShib, execShid, h]

/-! ### Each command on good operands -/

theorem execAdd_ok {s : State} (h : operandsOk .add s = true) :
    exec .add s = .next (complete s s.rBase.toNat (addDigits (operandA s) (operandB .add s)).2
      (carryFlag (addDigits (operandA s) (operandB .add s)).1) false 0#32) := by
  simp [exec, execAdd, h]

theorem execAddx_ok {s : State} (h : operandsOk .addx s = true) :
    exec .addx s = .next (complete s s.rBase.toNat
      (BitVec.ofNat 8 (addDigits (operandA s) (padTo s.aLen.toNat (operandB .addx s))).1 ::
        (addDigits (operandA s) (padTo s.aLen.toNat (operandB .addx s))).2)
      (carryFlag (addDigits (operandA s) (padTo s.aLen.toNat (operandB .addx s))).1) false 0#32) := by
  simp [exec, execAddx, h]

theorem execSub_ok {s : State} (h : operandsOk .sub s = true) :
    exec .sub s = .next (completeSub s (subArrays (operandA s) (operandB .sub s))) := by
  simp [exec, execSub, h]

theorem execSubx_ok {s : State} (h : operandsOk .subx s = true) :
    exec .subx s = .next (completeSub s (subArrays (operandA s) (operandB .subx s))) := by
  simp [exec, execSubx, h]

theorem execMul_ok {s : State} (h : operandsOk .mul s = true) :
    exec .mul s = .next (complete s s.rBase.toNat (mulDigits (operandA s) (operandB .mul s)) false false 0#32) := by
  simp [exec, execMul, h]

theorem execDiv_ok {s : State} (h : operandsOk .div s = true) :
    exec .div s = .next (completeDiv s (divDigits (operandA s) (operandB .div s) s.intDigits.toNat)) := by
  simp [exec, execDiv, h]

theorem execShib_ok {s : State} (h : operandsOk .shib s = true) :
    exec .shib s = .next (complete s s.aBase.toNat (radixStep 10 256 (operandA s)).2 false false
      (BitVec.ofNat 32 (radixStep 10 256 (operandA s)).1)) := by
  simp [exec, execShib, h]

theorem execShid_ok {s : State} (h : operandsOk .shid s = true) :
    exec .shid s = .next (complete s s.aBase.toNat (radixStep 256 10 (operandA s)).2 false false
      (BitVec.ofNat 32 (radixStep 256 10 (operandA s)).1)) := by
  simp [exec, execShid, h]

/-! ### The shape of every completion -/

/-- What a completed command may have written: its result buffer, `STATUS`, `RET` and the draw counter, with the
outcome fields in agreement. -/
def CompletedFrom (i : Instr) (s t : State) : Prop :=
  ∃ (e : Err) (r : Digits) (co bo : Bool) (v : Word) (k : Nat),
    (e ≠ .badOperand ∧ e ≠ .illegalCmd) ∧ r.length = resultLen i s ∧ k ≤ 1 ∧ v.toNat ≤ 255 ∧
      (e ≠ .ok → co = false ∧ bo = false ∧ v = 0#32) ∧
      (co = true → (i = .add ∨ i = .addx) ∧ bo = false ∧ v = 0#32) ∧
      (bo = true → (i = .sub ∨ i = .subx) ∧ co = false ∧ v = 0#32) ∧
      (v ≠ 0#32 → i = .shib ∨ i = .shid) ∧
      t = { s with dm := memWrite s.dm (resultBase i s) r, status := packStatus e co bo, ret := v,
                   drawNext := s.drawNext + k }

theorem completedFrom_completeSub {i : Instr} {s : State} (r : Option Digits) (hi : i = .sub ∨ i = .subx)
    (hr : ∀ d, r = some d → d.length = s.aLen.toNat) : CompletedFrom i s (completeSub s r) := by
  have hb : resultBase i s = s.rBase.toNat := by rcases hi with rfl | rfl <;> rfl
  have hl : resultLen i s = s.aLen.toNat := by rcases hi with rfl | rfl <;> rfl
  cases r with
  | none =>
    exact ⟨.ok, drawDigits s s.aLen.toNat, false, true, 0#32, 1, by decide, by simp [hl], le_refl _, by simp, by simp, by simp,
      by simp [hi], by simp, by rw [hb]; rfl⟩
  | some d =>
    exact ⟨.ok, d, false, false, 0#32, 0, by decide, by rw [hl]; exact hr d rfl, by omega, by simp, by simp, by simp, by simp,
      by simp, by rw [hb]; rfl⟩

theorem completedFrom_completeDiv {s : State} (r : DivOutcome) (hr : ∀ d, r = .quotient d → d.length = s.aLen.toNat) :
    CompletedFrom .div s (completeDiv s r) := by
  cases r with
  | byZero =>
    exact ⟨.divByZero, drawDigits s s.aLen.toNat, false, false, 0#32, 1, by decide, by simp [resultLen], le_refl _, by simp, by simp,
      by simp, by simp, by simp, rfl⟩
  | overflow =>
    exact ⟨.overflow, zeros s.aLen.toNat, false, false, 0#32, 0, by decide, by simp [resultLen], by omega, by simp, by simp,
      by simp, by simp, by simp, rfl⟩
  | quotient d =>
    exact ⟨.ok, d, false, false, 0#32, 0, by decide, hr d rfl, by omega, by simp, by simp, by simp, by simp, by simp, rfl⟩
  | unspecified =>
    exact ⟨.ok, drawDigits s s.aLen.toNat, false, false, 0#32, 1, by decide, by simp [resultLen], le_refl _, by simp, by simp,
      by simp, by simp, by simp, rfl⟩

theorem radix_carry_le {R m : Nat} (h0 : 0 < R) (hR : R ≤ 256) (hm0 : 0 < m) (a : Digits) (ha : DigitsBelow R a) :
    (radixStep R m a).1 < m := by
  rw [(radixStep_val h0 hR m a).2, Nat.div_lt_iff_lt_mul (Nat.pow_pos h0)]
  exact Nat.mul_lt_mul_of_pos_left (valIn_lt ha) hm0

theorem validDecimal_below {s : State} (h : validDecimal s = true) : DigitsBelow 10 (operandA s) := by
  intro d hd
  simp only [validDecimal, List.all_eq_true, decide_eq_true_eq] at h
  have := h d hd; omega

/-- Every command on good operands completes, and this is all it does. -/
theorem exec_ok {i : Instr} {s : State} (h : operandsOk i s = true) :
    ∃ t, exec i s = .next t ∧ CompletedFrom i s t := by
  cases i with
  | add =>
    refine ⟨_, execAdd_ok h, .ok, _, _, false, 0#32, 0, by decide, ?_, by omega, by simp, by simp, by simp, by simp, by simp, rfl⟩
    rw [addDigits_length (by simp [bufLenB])]; simp [resultLen]
  | addx =>
    refine ⟨_, execAddx_ok h, .ok, _, _, false, 0#32, 0, by decide, ?_, by omega, by simp, by simp, by simp, by simp, by simp, rfl⟩
    have hle := operandsOk_order h (.inl rfl)
    rw [List.length_cons, addDigits_length (by rw [padTo_length (by simpa [bufLenB] using hle)]; simp)]
    simp [resultLen]
  | sub =>
    refine ⟨_, execSub_ok h, completedFrom_completeSub _ (.inl rfl) ?_⟩
    intro d hd
    rw [subArrays_eq (by simp [bufLenB])] at hd
    split at hd
    · cases hd; simp
    · cases hd
  | subx =>
    refine ⟨_, execSubx_ok h, completedFrom_completeSub _ (.inr rfl) ?_⟩
    intro d hd
    have hle := operandsOk_order h (.inr rfl)
    rw [subArrays_eq (by simpa [bufLenB] using hle)] at hd
    split at hd
    · cases hd; simp
    · cases hd
  | mul =>
    exact ⟨_, execMul_ok h, .ok, _, false, false, 0#32, 0, by decide, by simp [resultLen, bufLenB], by omega, by simp, by simp,
      by simp, by simp, by simp, rfl⟩
  | div =>
    refine ⟨_, execDiv_ok h, completedFrom_completeDiv _ ?_⟩
    intro d hd
    simpa using divDigits_length hd
  | shib =>
    have hd : validDecimal s = true := by simp_all [operandsOk]
    have hc := radix_carry_le (R := 10) (m := 256) (by omega) (by omega) (by omega) _ (validDecimal_below hd)
    exact ⟨_, execShib_ok h, .ok, _, false, false, _, 0, by decide, by simp [resultLen], by omega,
      by rw [BitVec.toNat_ofNat]; omega, by simp, by simp, by simp, by simp, rfl⟩
  | shid =>
    have hc := radix_carry_le (R := 256) (m := 10) (by omega) (by omega) (by omega) _ (digitsBelow_256 (operandA s))
    exact ⟨_, execShid_ok h, .ok, _, false, false, _, 0, by decide, by simp [resultLen], by omega,
      by rw [BitVec.toNat_ofNat]; omega, by simp, by simp, by simp, by simp, rfl⟩

/-- What a command can do: refuse its operands, or complete. It never stops the machine. -/
theorem exec_cases (i : Instr) (s : State) :
    (operandsOk i s = false ∧ exec i s = .next (raiseStatus .badOperand s)) ∨
      (operandsOk i s = true ∧ ∃ t, exec i s = .next t ∧ CompletedFrom i s t) := by
  cases h : operandsOk i s with
  | false => exact .inl ⟨rfl, exec_bad h⟩
  | true => exact .inr ⟨rfl, exec_ok h⟩

end Sys2Proof.Machine
end

