-- ==== Sys2Proof/Laws/HostProgram.lean ====
section
/-! SUPPORT. The moves and bus writes of host programs (spec/30_encoding.md R98 to R100). -/

namespace Sys2Proof.Machine

@[simp] theorem busWrites_nil : busWrites [] = [] := rfl

@[simp] theorem busWrites_append (ms ns : List Move) : busWrites (ms ++ ns) = busWrites ms ++ busWrites ns :=
  List.filterMap_append

@[simp] theorem moveWrite_cmdMove (w : Word) (t : Timing) : moveWrite (cmdMove w t) = some (.reg (regOffset 0) w) := by
  cases t <;> rfl

@[simp] theorem moveWrite_waitMove (t : Timing) : moveWrite (waitMove t) = none := by cases t <;> rfl

@[simp] theorem programMoves_nil (t : Nat → Timing) : programMoves t [] = [] := rfl

/-- A command in flight or complete at once is the same bus write, and a wait is none, however long it lasts. -/
theorem stmtMoves_writes_any_timing (t u : Timing) (p : Stmt) : busWrites (stmtMoves t p) = busWrites (stmtMoves u p) := by
  cases p <;> simp [stmtMoves, busWrites]
  split <;> simp

theorem programMovesFrom_writes_any_timing (t u : Nat → Timing) (p : List Stmt) (k : Nat) :
    busWrites (programMovesFrom t k p) = busWrites (programMovesFrom u k p) := by
  induction p generalizing k with
  | nil => rfl
  | cons q p ih => simp only [programMovesFrom, busWrites_append, ih, stmtMoves_writes_any_timing (t k) (u k)]

/-- R100: the encoding of a program does not depend on how long its commands are in flight. -/
theorem programWrites_any_timing (t : Nat → Timing) (p : List Stmt) : busWrites (programMoves t p) = programWrites p :=
  programMovesFrom_writes_any_timing _ _ p 0

end Sys2Proof.Machine
end

