-- ==== Sys2Proof/Laws/PerInstr.lean ====
section
/-! SUPPORT. Statements about every command as syntax, one lemma per constructor. -/

namespace Sys2Proof.Laws

/-- Family `Encoding`: a command is well formed, its word is a legal command word, and reading the word gives the
command back. -/
def Encoding.Statement (i : Instr) : Prop :=
  i.wf = true ∧ cmdWordWf (encode i) = true ∧ decode (encode i) = .ok i ∧ decodeTableWord 32 (encode i).toNat = some i

theorem Encoding.add : Encoding.Statement .add := by unfold Encoding.Statement; decide
theorem Encoding.addx : Encoding.Statement .addx := by unfold Encoding.Statement; decide
theorem Encoding.sub : Encoding.Statement .sub := by unfold Encoding.Statement; decide
theorem Encoding.subx : Encoding.Statement .subx := by unfold Encoding.Statement; decide
theorem Encoding.mul : Encoding.Statement .mul := by unfold Encoding.Statement; decide
theorem Encoding.div : Encoding.Statement .div := by unfold Encoding.Statement; decide
theorem Encoding.shib : Encoding.Statement .shib := by unfold Encoding.Statement; decide
theorem Encoding.shid : Encoding.Statement .shid := by unfold Encoding.Statement; decide

end Sys2Proof.Laws
end

