-- ==== Sys2Proof/Laws/Step.lean ====
section
/-! SUPPORT. What a step can do, said once. -/

namespace Sys2Proof.Machine

/-- What a command in flight can end as: an illegal word, refused operands, or a completion. -/
def CommandEnds (s t : State) : Prop :=
  t = raiseStatus .illegalCmd s ∨ t = raiseStatus .badOperand s ∨ ∃ i, operandsOk i s = true ∧ CompletedFrom i s t

/-- The engine always completes: neither a fault nor a refusal. -/
theorem runCommand_ends (s : State) : ∃ t, runCommand s = .next t ∧ CommandEnds s t := by
  unfold runCommand
  split
  · exact ⟨_, rfl, .inl rfl⟩
  · rename_i i _
    rcases exec_cases i s with ⟨_, h⟩ | ⟨hok, t, h, hc⟩
    · exact ⟨_, h, .inr (.inl rfl)⟩
    · exact ⟨t, h, .inr (.inr ⟨i, hok, hc⟩)⟩

theorem runCommand_next {s t : State} (h : runCommand s = .next t) : CommandEnds s t := by
  obtain ⟨t', h', hc⟩ := runCommand_ends s
  rw [h] at h'
  cases h'
  exact hc

@[simp] theorem busy_withAgenda (s : State) (l : List Move) : busy (withAgenda s l) = busy s := rfl

/-- The next state of a move, one case for each thing a move can do. -/
inductive MoveTo (s : State) : State → Prop where
  /-- Nothing changed: an ignored write, an idle engine. -/
  | stay : MoveTo s s
  /-- A host write to a register number other than that of `CMD`. -/
  | wrote (n : Nat) (v : Word) : busy s = false → MoveTo s (writeReg s n v)
  /-- A host read. -/
  | looked (r : BusRead) : MoveTo s { s with reads := r :: s.reads }
  /-- A host write of one byte of digit memory. -/
  | stored (a : Nat) (d : Byte) : busy s = false → a < s.par.dmSize → MoveTo s { s with dm := memPut s.dm a d }
  /-- A host read of a wait that goes on. -/
  | polled (k : Nat) (r : BusRead) : busy s = true →
      MoveTo s { withAgenda s (.wait k :: s.agenda) with reads := r :: s.reads }
  /-- A command in flight completed while the host waits. -/
  | waited (t : State) : busy s = true → CommandEnds (withAgenda s (.wait 0 :: s.agenda)) t → MoveTo s t
  /-- A command started and still in flight. -/
  | started (w : Word) : busy s = false → MoveTo s (startCmd w s)
  /-- A reset. -/
  | wasReset : MoveTo s (applyReset s)
  /-- A command started and completed. -/
  | ran (w : Word) (t : State) : busy s = false → CommandEnds (startCmd w s) t → MoveTo s t
  /-- A command in flight completed. -/
  | finished (t : State) : busy s = true → CommandEnds s t → MoveTo s t

theorem engineMove_to {s t : State} (h : engineMove s = .next t) : MoveTo s t := by
  unfold engineMove at h
  split at h
  · exact .finished t ‹_› (runCommand_next h)
  · cases h; exact .stay

theorem hostWait_to {k : Nat} {s t : State} (h : hostWait k s = .next t) : MoveTo s t := by
  unfold hostWait at h
  split at h
  · rename_i hb
    cases k with
    | zero => exact .waited t hb (runCommand_next h)
    | succ k => cases h; exact .polled k _ hb
  · cases h; exact .looked _

/-- An idle engine ends a wait at its first read. -/
theorem hostWait_idle {k : Nat} {s : State} (h : busy s = false) : hostWait k s = hostRead 1 s := by
  simp [hostWait, h]

theorem doMove_to {m : Move} {s t : State} (h : doMove m s = .next t) : MoveTo s t := by
  cases m with
  | wr n v =>
    simp only [doMove, hostWrite] at h
    split at h
    · cases h; exact .stay
    · split at h
      · exact .ran v t (by simpa using ‹¬busy s = true›) (runCommand_next h)
      · cases h; exact .wrote n v (by simpa using ‹¬busy s = true›)
  | rd n => cases h; exact .looked _
  | st a d =>
    simp only [doMove, hostStore] at h
    split at h
    · cases h
    · split at h
      · cases h; exact .stored a d (by simpa using ‹¬busy s = true›) ‹_›
      · cases h
  | ld a =>
    simp only [doMove, hostLoad] at h
    split at h
    · cases h
    · split at h
      · cases h; exact .looked _
      · cases h
  | cmdStart v =>
    simp only [doMove, beginCommand] at h
    split at h
    · cases h; exact .stay
    · cases h; exact .started v (by simpa using ‹¬busy s = true›)
  | cmdFinish => exact engineMove_to h
  | wait k => exact hostWait_to h
  | reset => cases h; exact .wasReset

/-- The state a step's move acts on: the move has been taken from the agenda. -/
theorem step_to {s t : State} (h : step s = .next t) : MoveTo (withAgenda s s.agenda.tail) t := by
  unfold step nextMove at h
  split at h
  · rename_i ha
    have : withAgenda s s.agenda.tail = s := by rw [ha]; cases s; simp_all [withAgenda]
    rw [this]; exact engineMove_to h
  · rename_i m rest ha
    rw [ha]; exact doMove_to h

end Sys2Proof.Machine
end

