-- ==== Sys2Proof/Tests/Slice0.lean ====
section
/-! SUPPORT. Tests: expected values from spec/95_test_vectors.md or worked by hand from the rule named. Witnesses: for each
obligation with hypotheses, states and operands that meet them. -/

set_option Elab.async false

open Sys2Proof Sys2Proof.Machine

namespace Sys2Proof.Tests

/-! ## Small states -/

/-- `a` at 0, `b` at 32, the result buffer at 64, `INT_DIGITS = k`; everything else as after reset. -/
def ready (a b : Digits) (k : Nat) : State :=
  { State.reset with
    dm := memWrite (memWrite [] 0 a) 32 b
    aLen := BitVec.ofNat 32 a.length
    bBase := 32#32
    bLen := BitVec.ofNat 32 b.length
    rBase := 64#32
    intDigits := BitVec.ofNat 32 k }

/-- The same state with these moves still to come. -/
def moving (s : State) (ms : List Move) : State := { s with agenda := ms }

/-- The host is about to write `w` to `CMD`. -/
def writing (s : State) (w : Word) : State := moving s [.wr 0 w]

/-- A command is in flight. -/
def inFlight (s : State) (w : Word) : State := { s with cmd := w, status := setBusy s.status }

/-- The state of an outcome that is one. -/
def after : Result → Option State
  | .next t => some t
  | .fault _ => none
  | .refused _ => none

/-- Whether an outcome is a next state. -/
def runs (r : Result) : Bool := (after r).isSome

/-- The `n` listed bytes from `base` up, `STATUS` and `RET` after an outcome. -/
def seen (r : Result) (base n : Nat) : Option (List (Option Byte) × Nat × Nat) :=
  (after r).map fun t => ((List.range n).map fun k => memGet t.dm (base + k), t.status.toNat, t.ret.toNat)

/-- `STATUS` and `RET` after an outcome. -/
def outcome (r : Result) : Option (Nat × Nat) := (after r).map fun t => (t.status.toNat, t.ret.toNat)

/-- The result digits as `seen` lists them. -/
def digits (l : List Nat) : List (Option Byte) := l.map fun n => some (BitVec.ofNat 8 n)

/-- A digit array from numbers. -/
def arr8 (l : List Nat) : Digits := l.map (BitVec.ofNat 8)

theorem runs_next {r : Result} (h : runs r = true) : ∃ t, r = .next t := by
  cases r with
  | next t => exact ⟨t, rfl⟩
  | fault _ => cases h
  | refused _ => cases h

/-! ## WellFormed: each check refuses an ill-formed term -/

theorem test_wf_reserved_bits_refused : cmdWordWf 0x00000101#32 = false ∧ cmdWordWf 0x80000001#32 = false := by decide

theorem test_wf_opcode_zero_refused : cmdWordWf 0x00000000#32 = false := by decide

theorem test_wf_opcode_above_refused : cmdWordWf 0x00000009#32 = false ∧ cmdWordWf 0x000000FF#32 = false := by decide

theorem test_wf_legal_words : cmdWordWf 0x00000001#32 = true ∧ cmdWordWf 0x00000008#32 = true := by decide

theorem test_wf_params_maxlen : Params.wf ⟨0, 256, 0⟩ = false ∧ Params.wf ⟨2 ^ 32, 256, 0⟩ = false := by decide

theorem test_wf_params_dmsize : Params.wf ⟨16, 0, 0⟩ = false ∧ Params.wf ⟨16, 2 ^ 32 + 1, 0⟩ = false := by decide

theorem test_wf_params_bounds : Params.wf ⟨1, 1, 0⟩ = true ∧ Params.wf ⟨2 ^ 32 - 1, 2 ^ 32, 0⟩ = true := by decide

/-! ## Decode: format C of spec/30_encoding.md R90 written out bit by bit, opcodes of R94 -/

theorem test_decode_add : decode 0b00000000000000000000000000000001#32 = .ok .add := rfl

theorem test_decode_addx : decode 0b00000000000000000000000000000010#32 = .ok .addx := rfl

theorem test_decode_sub : decode 0b00000000000000000000000000000011#32 = .ok .sub := rfl

theorem test_decode_subx : decode 0b00000000000000000000000000000100#32 = .ok .subx := rfl

theorem test_decode_mul : decode 0b00000000000000000000000000000101#32 = .ok .mul := rfl

theorem test_decode_div : decode 0b00000000000000000000000000000110#32 = .ok .div := rfl

theorem test_decode_shib : decode 0b00000000000000000000000000000111#32 = .ok .shib := rfl

theorem test_decode_shid : decode 0b00000000000000000000000000001000#32 = .ok .shid := rfl

/-- R95: opcode 0, 9 and 255 are unassigned; a reserved bit is rejected whatever the opcode. -/
theorem test_decode_rejects : decode 0x00000000#32 = .error .opcodeUnassigned ∧
    decode 0x00000009#32 = .error .opcodeUnassigned ∧ decode 0x000000FF#32 = .error .opcodeUnassigned ∧
    decode 0x00000101#32 = .error .reservedBitsSet ∧ decode 0x80000001#32 = .error .reservedBitsSet :=
  ⟨rfl, rfl, rfl, rfl, rfl⟩

theorem test_decodeTableWord : decodeTableWord 32 6 = some .div ∧ decodeTableWord 32 9 = none ∧
    decodeTableWord 8 8 = some .shid := by decide

/-! ## The commands (spec/95_test_vectors.md sections 1 and 2) -/

theorem test_add_carry_out : seen (exec .add (ready (arr8 [255, 255]) (arr8 [0, 1]) 0)) 64 2 =
    some (digits [0, 0], 0x10, 0) := by decide +kernel

theorem test_add_carries_between_digits : seen (exec .add (ready (arr8 [18, 52, 86]) (arr8 [1, 255, 200]) 0)) 64 3 =
    some (digits [20, 52, 30], 0, 0) := by decide +kernel

/-- Source vector S4. -/
theorem test_addx_differing_lengths : seen (exec .addx (ready (arr8 [59, 154, 202, 0]) (arr8 [0, 255]) 0)) 64 5 =
    some (digits [0, 59, 154, 202, 255], 0, 0) := by decide +kernel

theorem test_addx_leading_digit : seen (exec .addx (ready (arr8 [255, 255, 255]) (arr8 [0, 1]) 0)) 64 4 =
    some (digits [1, 0, 0, 0], 0x10, 0) := by decide +kernel

theorem test_sub_borrow_walk : seen (exec .sub (ready (arr8 [2, 0, 0, 0]) (arr8 [0, 0, 0, 1]) 0)) 64 4 =
    some (digits [1, 255, 255, 255], 0, 0) := by decide +kernel

theorem test_sub_broken_contract : outcome (exec .sub (ready (arr8 [0, 1]) (arr8 [0, 2]) 0)) = some (0x20, 0) := by decide +kernel

theorem test_subx_differing_lengths : seen (exec .subx (ready (arr8 [1, 0, 0, 0]) (arr8 [255, 255]) 0)) 64 4 =
    some (digits [0, 255, 0, 1], 0, 0) := by decide +kernel

theorem test_subx_broken_contract : outcome (exec .subx (ready (arr8 [0, 1]) (arr8 [2]) 0)) = some (0x20, 0) := by decide +kernel

theorem test_mul_largest_digits : seen (exec .mul (ready (arr8 [255, 255]) (arr8 [255, 255]) 0)) 64 5 =
    some (digits [0, 255, 254, 0, 1], 0, 0) := by decide +kernel

theorem test_mul_differing_lengths : seen (exec .mul (ready (arr8 [0, 85, 85]) (arr8 [3, 0, 0]) 0)) 64 7 =
    some (digits [0, 0, 0, 255, 255, 0, 0], 0, 0) := by decide +kernel

/-- Source vector S2. -/
theorem test_div_repeating : seen (exec .div (ready (arr8 [1, 0, 0, 0]) (arr8 [0, 3, 0, 0]) 1)) 64 4 =
    some (digits [85, 85, 85, 85], 0, 0) := by decide +kernel

/-- Source vectors S3 and S5: overflow clears the result, a zero divisor is found before a zero dividend. -/
theorem test_div_failures : seen (exec .div (ready (arr8 [128, 0]) (arr8 [0, 128]) 1)) 64 2 = some (digits [0, 0], 2, 0) ∧
    outcome (exec .div (ready (arr8 [0, 0]) (arr8 [0, 0]) 1)) = some (1, 0) := by decide +kernel

theorem test_shib_emits : seen (exec .shib (ready (arr8 [9, 9]) [] 0)) 0 2 = some (digits [4, 4], 0, 253) := by decide +kernel

theorem test_shib_not_decimal : seen (exec .shib (ready (arr8 [1, 10]) [] 0)) 0 2 = some (digits [1, 10], 3, 0) := by decide +kernel

theorem test_shid_emits : seen (exec .shid (ready (arr8 [255, 250]) [] 0)) 0 2 = some (digits [255, 196], 0, 9) := by decide +kernel

theorem test_shid_ignores_other_registers :
    seen (exec .shid { ready (arr8 [25, 153]) [] 0 with rBase := 0xFFFFFFFF#32, intDigits := 99#32 }) 0 2 =
      some (digits [255, 250], 0, 0) := by decide +kernel

/-! ## Validation (section 2.11) -/

/-- A state with the descriptors alone. -/
def described (ab al bb bl rb k : Nat) : State :=
  { State.reset with
    aBase := BitVec.ofNat 32 ab, aLen := BitVec.ofNat 32 al, bBase := BitVec.ofNat 32 bb
    bLen := BitVec.ofNat 32 bl, rBase := BitVec.ofNat 32 rb, intDigits := BitVec.ofNat 32 k }

/-- Items 1 to 4. -/
theorem test_validation_lengths : operandsOk .add (described 0 17 32 0 64 0) = false ∧
    operandsOk .add (described 0 16 16 0 32 0) = true ∧ operandsOk .addx (described 0 2 2 0 4 0) = false ∧
    operandsOk .addx (described 0 2 2 3 8 0) = false ∧ operandsOk .mul (described 0 2 2 3 8 0) = true ∧
    operandsOk .div (described 0 2 2 0 4 3) = false ∧ operandsOk .div (described 0 2 2 0 4 2) = true := by decide

/-- Item 5: unbounded sums, and the command's own result length. -/
theorem test_validation_ranges : operandsOk .add (described 253 3 0 0 8 0) = true ∧
    operandsOk .add (described 254 3 0 0 8 0) = false ∧ operandsOk .add (described 0xFFFFFFFF 2 0 0 8 0) = false ∧
    operandsOk .addx (described 0 4 8 2 252 0) = false ∧ operandsOk .addx (described 0 4 8 2 251 0) = true := by decide

/-- Item 6: sources may overlap, adjacent is not overlapping. -/
theorem test_validation_overlap : operandsOk .add (described 0 4 2 0 8 0) = true ∧
    operandsOk .add (described 0 4 16 0 3 0) = false ∧ operandsOk .add (described 0 4 16 0 4 0) = true ∧
    operandsOk .add (described 0 4 16 0 0 0) = false ∧ operandsOk .addx (described 0 4 16 2 12 0) = false := by decide

/-! ## Registers, the host's side, reset (sections 2.12 and 3) -/

/-- `RD STATUS` in flight with a previous `CO = 1`; register 9 reads 0. -/
theorem test_status_in_flight :
    readReg (inFlight { ready (arr8 [1]) (arr8 [2]) 0 with status := 0x10#32 } 1#32) 1 = 0x80000010#32 ∧
    readReg (ready (arr8 [1]) (arr8 [2]) 0) 9 = 0#32 := by decide

/-- After reset, `WR CMD, 1` gives `STATUS` 3; an illegal word with `A_LEN = 0` gives 4 (decode before validation). -/
theorem test_first_command_after_reset : outcome (step (writing State.reset 1#32)) = some (3, 0) ∧
    outcome (step (writing State.reset 9#32)) = some (4, 0) := by decide

/-- `WR A_LEN, 0xFFFFFFFF` stores all 32 bits; `WR STATUS` does nothing. -/
theorem test_register_writes :
    (after (step (moving State.reset [.wr 4 0xFFFFFFFF#32]))).map (readReg · 4) = some 0xFFFFFFFF#32 ∧
    (after (step (moving State.reset [.wr 1 0xFFFFFFFF#32]))).map (readReg · 1) = some 0#32 := by decide

theorem test_fetch_word_runs : seen (step ((ready (arr8 [7]) (arr8 [2]) 1).withFetchWord 32 6)) 64 1 =
    some (digits [3], 0, 0) := by decide +kernel

theorem test_reset_during_command : outcome (step (moving (inFlight (ready (arr8 [7]) (arr8 [2]) 1) 6#32) [.reset])) =
    some (0, 0) := by decide

/-- R99: a wait that finds `BUSY = 1` stays, and its read saw bit 31. -/
theorem test_wait_goes_on :
    (after (step (moving (inFlight (ready (arr8 [7]) (arr8 [2]) 1) 6#32) [.wait 1, .ld 64]))).map
      (fun t => (t.agenda, t.reads, busy t)) = some ([.wait 0, .ld 64], [.reg 1 0x80000000#32], true) := by decide +kernel

/-- R99, R274: the engine completes while the host waits, and the host has one read yet to make. -/
theorem test_wait_completes :
    (after (step (moving (inFlight (ready (arr8 [7]) (arr8 [2]) 1) 6#32) [.wait 0, .ld 64]))).map
      (fun t => (t.agenda, memGet t.dm 64, busy t)) = some ([.wait 0, .ld 64], some 3#8, false) := by decide +kernel

/-- The encoding of program P1. -/
theorem test_program_encoding :
    programWrites [.st 0 (arr8 [1, 128]), .st 2 (arr8 [2, 128]), .setA 0#32 2#32, .setB 2#32 2#32, .setR 8#32,
      .command .mul, .rd 1, .ld 8 5, .ld 10 2] =
      [.byte 0 1#8, .byte 1 128#8, .byte 2 2#8, .byte 3 128#8, .reg 0x0C 0#32, .reg 0x10 2#32, .reg 0x14 2#32,
        .reg 0x18 2#32, .reg 0x1C 8#32, .reg 0x00 5#32] := by decide

/-! ## The functions inside the engine (sections 2.1 and 2.2) -/

theorem test_compare_and_zero : compareLe (arr8 [1, 2]) (arr8 [1, 2]) = true ∧ compareLe (arr8 [0, 255]) (arr8 [1, 0]) = true ∧
    compareLe (arr8 [2, 0]) (arr8 [1, 255]) = false ∧ isZero (arr8 [0, 0, 1]) = false := by decide

theorem test_byte_moves : widen (arr8 [1, 2]) 5 = arr8 [1, 2, 0, 0, 0] ∧
    byteShiftRight (arr8 [1, 2, 3]) 2 = arr8 [0, 0, 1] ∧ byteShiftRight (arr8 [1, 2, 3]) 7 = arr8 [0, 0, 0] ∧
    clear (arr8 [7, 8]) = arr8 [0, 0] := by decide

theorem test_bit_mask : bitMask 0 = 0#8 ∧ bitMask 3 = 7#8 ∧ bitMask 8 = 255#8 ∧ bitMask 9 = 255#8 := by decide

theorem test_bit_shift_right : bitShiftRight [0x81#8, 0x01#8] 1 = [0x40#8, 0x80#8] ∧
    bitShiftRight [0x12#8, 0x34#8, 0x56#8] 12 = [0x00#8, 0x01#8, 0x23#8] ∧
    bitShiftRight [0x81#8, 0x01#8] 17 = [0x00#8, 0x00#8] := by decide

theorem test_set_bit : setBit (arr8 [0, 0]) 7 = arr8 [1, 0] ∧ setBit (arr8 [0, 0]) 8 = arr8 [0, 128] ∧
    setBit (arr8 [0, 128]) 8 = arr8 [0, 128] := by decide

theorem test_align : align (arr8 [128, 0, 0, 0]) (arr8 [0, 128, 0, 0]) = some (arr8 [0, 64, 0, 0], arr8 [0, 64, 0, 0], -8) ∧
    align (arr8 [0, 1]) (arr8 [128, 0]) = some (arr8 [0, 1], arr8 [0, 1], 15) := by decide +kernel

theorem test_readjust : readjust (arr8 [0, 0]) (arr8 [0, 4]) = (arr8 [0, 0], 3) ∧
    readjust (arr8 [0, 8]) (arr8 [0, 8]) = (arr8 [0, 8], 0) := by decide +kernel

/-! ## Witnesses: the hypotheses of each obligation can be met -/

theorem witness_IdleEngineChangesNothing : (ready (arr8 [1]) (arr8 [2]) 0).agenda = [] ∧
    busy (ready (arr8 [1]) (arr8 [2]) 0) = false := by decide

theorem witness_ResetInputClearsRegistersAndMemory :
    (moving (inFlight (ready (arr8 [1]) (arr8 [2]) 0) 1#32) [.reset, .rd 1]).agenda = .reset :: [.rd 1] := rfl

theorem witness_NoCommandTouchesMemoryBeforeALenIsSet : (ready [] (arr8 [2]) 0).aLen = 0#32 ∧
    Spec.writesCmd (writing (ready (arr8 [1]) (arr8 [2]) 0) 0#32) 0#32 [] := ⟨rfl, rfl, rfl⟩

theorem witness_DecodeUndoesEncode : Instr.wf .add = true ∧ Instr.wf .shid = true := ⟨rfl, rfl⟩

theorem witness_IllegalWordTouchesNothing :
    (Spec.writesCmd (writing (ready (arr8 [1]) (arr8 [2]) 0) 9#32) 9#32 [] ∧ ∀ i, 9#32 ≠ encode i) ∧
    Spec.writesCmd (writing (ready (arr8 [1]) (arr8 [2]) 0) 0x101#32) 0x101#32 [] ∧ ∀ i, 0x101#32 ≠ encode i :=
  ⟨⟨⟨rfl, rfl⟩, by intro i; cases i <;> decide⟩, ⟨rfl, rfl⟩, by intro i; cases i <;> decide⟩

theorem witness_StepRunsDecodedCommand : Spec.writesCmd (writing (ready (arr8 [1]) (arr8 [2]) 0) 8#32) 8#32 [] ∧
    Instr.wf .shid = true ∧ decode 8#32 = .ok .shid := ⟨⟨rfl, rfl⟩, rfl, rfl⟩

theorem witness_NextStepRunsFetchWord : decodeTableWord 32 1 = some .add ∧ decodeTableWord 32 8 = some .shid := by decide

/-- Valid operands at the bounds of the items: `A_LEN = MAXLEN`, `B_LEN = 1` and `INT_DIGITS = A_LEN`, a buffer that ends at
`DM_SIZE`, adjacent buffers, the digit 9. -/
theorem witness_ValidationItems_hold : Spec.validOperands .div (described 240 16 0 0 16 16) ∧
    Spec.validOperands .mul (described 0 16 16 1 17 0) ∧ Spec.validOperands .addx (described 0 1 0 1 1 0) ∧
    Spec.validOperands .shib (ready (arr8 [9, 0]) [] 0) := by
  refine ⟨?_, ?_, ?_, ?_⟩ <;> (unfold Spec.validOperands; decide +kernel)

/-- Each item broken at its bound: 1 (both ends), 2, 3, 4, 5, 6, 7. -/
theorem witness_ValidationItems_fail : ¬Spec.validOperands .shid (described 0 0 0 0 0 0) ∧
    ¬Spec.validOperands .shid (described 0 17 0 0 0 0) ∧ ¬Spec.validOperands .mul (described 0 1 1 0 2 0) ∧
    ¬Spec.validOperands .subx (described 0 1 1 2 3 0) ∧ ¬Spec.validOperands .div (described 0 2 2 0 4 3) ∧
    ¬Spec.validOperands .add (described 0 4 4 0 253 0) ∧ ¬Spec.validOperands .add (described 0 4 16 0 3 0) ∧
    ¬Spec.validOperands .shib (ready (arr8 [9, 10]) [] 0) := by
  refine ⟨?_, ?_, ?_, ?_, ?_, ?_, ?_, ?_⟩ <;> (unfold Spec.validOperands; decide +kernel)

/-- One write of `CMD` for each status, in the order of R239. -/
theorem witness_FirstApplicableStatus :
    (Spec.writesCmd (writing (ready [] [] 0) 9#32) 9#32 [] ∧ ∀ i, 9#32 ≠ encode i) ∧
    (Spec.writesCmd (writing (ready [] [] 0) 6#32) 6#32 [] ∧ operandsOk .div (writing (ready [] [] 0) 6#32) = false) ∧
    (operandsOk .div (writing (ready (arr8 [0]) (arr8 [0]) 1) 6#32) = true ∧
      Spec.valB (writing (ready (arr8 [0]) (arr8 [0]) 1) 6#32) 1 = 0) ∧
    (operandsOk .div (writing (ready (arr8 [0]) (arr8 [1]) 1) 6#32) = true ∧
      Spec.valA (writing (ready (arr8 [0]) (arr8 [1]) 1) 6#32) = 0) ∧
    (operandsOk .div (writing (ready (arr8 [1]) (arr8 [1]) 0) 6#32) = true ∧
      256 ^ 1 ≤ Spec.quotient (writing (ready (arr8 [1]) (arr8 [1]) 0) 6#32)) ∧
    (operandsOk .div (writing (ready (arr8 [255]) (arr8 [1]) 1) 6#32) = true ∧
      Spec.quotient (writing (ready (arr8 [255]) (arr8 [1]) 1) 6#32) < 256 ^ 1) ∧
    operandsOk .add (writing (ready (arr8 [1]) (arr8 [1]) 0) 1#32) = true :=
  ⟨⟨⟨rfl, rfl⟩, by intro i; cases i <;> decide⟩, ⟨⟨rfl, rfl⟩, rfl⟩, by decide⟩

theorem witness_AddWritesSumModulo : operandsOk .add (described 0 16 16 0 32 0) = true ∧
    operandsOk .add (described 0 0 16 0 32 0) = false := by decide

theorem witness_AddxWritesExactSum : operandsOk .addx (described 0 16 16 1 32 0) = true ∧
    operandsOk .addx (described 0 1 16 2 32 0) = false := by decide

theorem witness_SubWritesDifference : (operandsOk .sub (ready (arr8 [1, 0]) (arr8 [1, 0]) 0) = true ∧
      Spec.valB (ready (arr8 [1, 0]) (arr8 [1, 0]) 0) 2 ≤ Spec.valA (ready (arr8 [1, 0]) (arr8 [1, 0]) 0)) ∧
    operandsOk .sub (described 0 17 32 0 64 0) = false := by decide

theorem witness_SubxWritesDifference : (operandsOk .subx (ready (arr8 [1, 0]) (arr8 [255]) 0) = true ∧
      Spec.valB (ready (arr8 [1, 0]) (arr8 [255]) 0) 1 ≤ Spec.valA (ready (arr8 [1, 0]) (arr8 [255]) 0)) ∧
    operandsOk .subx (described 0 1 16 2 32 0) = false := by decide

theorem witness_BrokenSubtraction : (operandsOk .sub (ready (arr8 [1, 0]) (arr8 [1, 1]) 0) = true ∧
      Spec.valA (ready (arr8 [1, 0]) (arr8 [1, 1]) 0) < Spec.valB (ready (arr8 [1, 0]) (arr8 [1, 1]) 0) 2) ∧
    operandsOk .subx (ready (arr8 [0, 1]) (arr8 [2]) 0) = true ∧
      Spec.valA (ready (arr8 [0, 1]) (arr8 [2]) 0) < Spec.valB (ready (arr8 [0, 1]) (arr8 [2]) 0) 1 := by decide

theorem witness_MulWritesExactProduct : operandsOk .mul (described 0 16 16 16 32 0) = true ∧
    operandsOk .mul (described 0 16 16 17 64 0) = false := by decide

theorem witness_DivByZeroComesFirst : operandsOk .div (ready (arr8 [5, 0]) (arr8 [0, 0]) 1) = true ∧
    ∀ k, k < 2 → dmByte (ready (arr8 [5, 0]) (arr8 [0, 0]) 1) (32 + k) = 0#8 := by decide

/-- A zero dividend; a quotient of exactly `256^n`; the largest quotient that fits. -/
theorem witness_DivWritesTruncatedQuotient :
    (operandsOk .div (ready (arr8 [0, 0]) (arr8 [0, 5]) 1) = true ∧ Spec.valB (ready (arr8 [0, 0]) (arr8 [0, 5]) 1) 2 ≠ 0 ∧
      Spec.valA (ready (arr8 [0, 0]) (arr8 [0, 5]) 1) = 0) ∧
    (operandsOk .div (ready (arr8 [1, 0]) (arr8 [0, 1]) 1) = true ∧ Spec.valB (ready (arr8 [1, 0]) (arr8 [0, 1]) 1) 2 ≠ 0 ∧
      Spec.valA (ready (arr8 [1, 0]) (arr8 [0, 1]) 1) ≠ 0 ∧ 256 ^ 2 ≤ Spec.quotient (ready (arr8 [1, 0]) (arr8 [0, 1]) 1)) ∧
    operandsOk .div (ready (arr8 [255, 255]) (arr8 [0, 1]) 2) = true ∧
      Spec.valB (ready (arr8 [255, 255]) (arr8 [0, 1]) 2) 2 ≠ 0 ∧ Spec.valA (ready (arr8 [255, 255]) (arr8 [0, 1]) 2) ≠ 0 ∧
      Spec.quotient (ready (arr8 [255, 255]) (arr8 [0, 1]) 2) < 256 ^ 2 := by decide

/-- Both sides of the equivalence, at a quotient of exactly `256^I` and one just below. -/
theorem witness_OverflowIffQuotientTooLarge : (val (arr8 [1, 0]) ≠ 0 ∧ val (arr8 [0, 1]) ≠ 0 ∧
      256 ^ 1 * val (arr8 [0, 1]) ≤ val (arr8 [1, 0])) ∧
    val (arr8 [0, 255]) ≠ 0 ∧ ¬256 ^ 1 * val (arr8 [0, 1]) ≤ val (arr8 [0, 255]) := by decide

theorem witness_ShibMultipliesFractionBy256 : operandsOk .shib (ready (arr8 [9]) [] 0) = true ∧
    operandsOk .shib (ready (arr8 [10]) [] 0) = false := by decide

theorem witness_ShidMultipliesFractionBy10 : operandsOk .shid (described 240 16 0 0 0 0) = true ∧
    operandsOk .shid (described 241 16 0 0 0 0) = false := by decide

theorem witness_RetBoundPerCommand : (∃ t, exec .shib (ready (arr8 [9, 9]) [] 0) = .next t) ∧
    (∃ t, exec .shid (ready (arr8 [255]) [] 0) = .next t) ∧ ∃ t, exec .div (ready (arr8 [7]) (arr8 [2]) 1) = .next t :=
  ⟨runs_next (by decide +kernel), runs_next (by decide +kernel), runs_next (by decide +kernel)⟩

theorem witness_CommandFrame : (∃ t, exec .mul (ready (arr8 [7]) (arr8 [2]) 1) = .next t) ∧
    (63 < resultBase .mul (ready (arr8 [7]) (arr8 [2]) 1)) ∧
    resultBase .mul (ready (arr8 [7]) (arr8 [2]) 1) + resultLen .mul (ready (arr8 [7]) (arr8 [2]) 1) ≤ 67 :=
  ⟨runs_next (by decide +kernel), by decide, by decide⟩

/-- A write of `CMD` for each of the outcomes 0 to 4. -/
theorem witness_MemoryAfterEachOutcome :
    (after (step (writing (ready (arr8 [7]) (arr8 [2]) 1) 6#32))).map statusErr = some 0 ∧
    (after (step (writing (ready (arr8 [7]) (arr8 [0]) 1) 6#32))).map statusErr = some 1 ∧
    (after (step (writing (ready (arr8 [7]) (arr8 [2]) 0) 6#32))).map statusErr = some 2 ∧
    (after (step (writing (ready (arr8 [7]) (arr8 [2]) 2) 6#32))).map statusErr = some 3 ∧
    (after (step (writing (ready (arr8 [7]) (arr8 [2]) 1) 9#32))).map statusErr = some 4 ∧
    Spec.writesCmd (writing (ready (arr8 [7]) (arr8 [2]) 1) 6#32) (encode .div) [] :=
  ⟨by decide +kernel, by decide +kernel, by decide +kernel, by decide +kernel, by decide +kernel, rfl, rfl⟩

theorem witness_StatusFieldsAfterEveryCommand :
    (after (exec .add (ready (arr8 [255]) (arr8 [1]) 0))).map statusCO = some true ∧
    (after (exec .sub (ready (arr8 [0]) (arr8 [1]) 0))).map statusBO = some true ∧
    (after (exec .div (ready (arr8 [0]) (arr8 [0]) 0))).map statusErr = some 1 := by decide +kernel

theorem witness_NoCommandReadsOutcomesOrHistory : ∃ t, exec .sub (ready (arr8 [0]) (arr8 [1]) 0) = .next t :=
  runs_next (by decide +kernel)

/-- Two states that differ in `CMD`, `RET` and a byte outside the sources. -/
theorem witness_OutcomeIsAFunction :
    (∃ t, exec .mul (ready (arr8 [7]) (arr8 [2]) 1) = .next t) ∧
    (∃ t, exec .mul { ready (arr8 [7]) (arr8 [2]) 1 with
        cmd := 1#32, ret := 7#32, dm := memPut (ready (arr8 [7]) (arr8 [2]) 1).dm 200 9#8 } = .next t) ∧
    dmByte { ready (arr8 [7]) (arr8 [2]) 1 with dm := memPut (ready (arr8 [7]) (arr8 [2]) 1).dm 200 9#8 } 0 =
      dmByte (ready (arr8 [7]) (arr8 [2]) 1) 0 ∧
    dmByte { ready (arr8 [7]) (arr8 [2]) 1 with dm := memPut (ready (arr8 [7]) (arr8 [2]) 1).dm 200 9#8 } 32 =
      dmByte (ready (arr8 [7]) (arr8 [2]) 1) 32 :=
  ⟨runs_next (by decide +kernel), runs_next (by decide +kernel), by decide, by decide⟩

/-- A command for each of the three clauses. -/
theorem witness_IgnoredRegistersHaveNoEffect : (∃ t, exec .div (ready (arr8 [7]) (arr8 [2]) 1) = .next t) ∧
    (∃ t, exec .mul (ready (arr8 [7]) (arr8 [2]) 1) = .next t) ∧ ∃ t, exec .shid (ready (arr8 [7]) [] 1) = .next t :=
  ⟨runs_next (by decide +kernel), runs_next (by decide +kernel), runs_next (by decide +kernel)⟩

theorem witness_AddIsCommutative : ∃ t, exec .add (ready (arr8 [255]) (arr8 [1]) 0) = .next t := runs_next (by decide +kernel)

theorem witness_SubtractionUndoesAddition :
    ((arr8 [1, 2]).length = (arr8 [0, 255]).length ∧ (addDigits (arr8 [1, 2]) (arr8 [0, 255])).1 = 0) ∧
    (arr8 [255]).length = (arr8 [1]).length ∧ (addDigits (arr8 [255]) (arr8 [1])).1 ≠ 0 := by decide

theorem witness_SubxUndoesAddx : (arr8 [255]).length ≤ (arr8 [1, 2]).length := by decide

theorem witness_SubxWithEqualLengthsIsSub : (ready (arr8 [1, 0]) (arr8 [0, 1]) 0).bLen = (ready (arr8 [1, 0]) (arr8 [0, 1]) 0).aLen := by decide

theorem witness_CompareLeIsValueOrder : (arr8 [1, 0]).length = (arr8 [0, 255]).length := by decide

theorem witness_ArrayPrimitivesInNumbers : (arr8 [1, 2]).length ≤ 2 ∧ (arr8 [1, 2]).length ≤ 5 := by decide

/-- The last bit of an array, set and not set before. -/
theorem witness_SetBitSetsOneWeight : 15 < 8 * (arr8 [0, 0]).length ∧ val (arr8 [0, 0]) / 2 ^ (8 * 2 - 1 - 15) % 2 = 0 ∧
    val (arr8 [0, 1]) / 2 ^ (8 * 2 - 1 - 15) % 2 = 1 := by decide

theorem witness_AlignDividendHalvesBelowDivisor :
    ((arr8 [1, 0]).length = (arr8 [0, 0]).length ∧ val (arr8 [0, 0]) = 0) ∧
    (arr8 [1, 0]).length = (arr8 [0, 1]).length ∧ val (arr8 [0, 1]) ≠ 0 := by decide

theorem witness_ReadjustHalvesDownToRemainder : (arr8 [0, 0]).length = (arr8 [0, 4]).length ∧ val (arr8 [0, 0]) = 0 := by decide

/-- The last clause at both ends: `{0,5}` by itself loses a set bit in its one halving; `{0,4}` under `{0,2}` loses none.
Counts from spec/95_test_vectors.md section 2.2 and by hand. -/
theorem witness_AlignBringsMagnitudesTogether :
    ((arr8 [0, 5]).length = (arr8 [0, 5]).length ∧ val (arr8 [0, 5]) ≠ 0 ∧
      align (arr8 [0, 5]) (arr8 [0, 5]) = some (arr8 [0, 2], arr8 [0, 2], 0)) ∧
    (arr8 [0, 2]).length = (arr8 [0, 4]).length ∧ val (arr8 [0, 4]) ≠ 0 ∧
      align (arr8 [0, 2]) (arr8 [0, 4]) = some (arr8 [0, 2], arr8 [0, 2], 1) ∧ 2 ^ 1 ∣ val (arr8 [0, 4]) := by decide +kernel

/-- The loop's invariant with a halving that loses no bit (`2^1` divides 4, remainder 2). -/
theorem witness_DivIterationKeepsContract : (arr8 [0, 6]).length = (arr8 [0, 4]).length ∧
    val (arr8 [0, 4]) ≤ val (arr8 [0, 6]) ∧ val (arr8 [0, 6]) < 2 * val (arr8 [0, 4]) := by decide

theorem witness_DivisionAlwaysEnds : (arr8 [5]).length = (arr8 [0]).length ∧ 1 ≤ (arr8 [5]).length := by decide

theorem witness_MemReadAndMemWrite : 1 < (arr8 [5, 6]).length ∧ (2 < 3 ∨ 3 + (arr8 [5, 6]).length ≤ 2) ∧
    3 + (arr8 [5, 6]).length ≤ 5 := by decide

theorem witness_CanonicalMemoriesAreEqualData : Memory.wf (memPut (memPut [] 5 1#8) 3 2#8) ∧ Memory.wf [(3, 2#8), (5, 1#8)] ∧
    ∀ a, memGet (memPut (memPut [] 5 1#8) 3 2#8) a = memGet [(3, 2#8), (5, 1#8)] a := ⟨by decide, by decide, fun _ => rfl⟩

theorem witness_DescriptorHoldsWhatWasWritten : busy (moving State.reset [.wr 3 5#32]) = false ∧ 3 ≤ 3 ∧ 8 ≤ 8 ∧
    (moving State.reset [.wr 3 5#32]).agenda = [.wr 3 5#32] ∧
    (moving State.reset [.wr 8 0xFFFFFFFF#32]).agenda = [.wr 8 0xFFFFFFFF#32] := by decide

theorem witness_ReadOnlyAndReservedRegisters : (moving State.reset [.wr 1 5#32]).agenda = [.wr 1 5#32] ∧
    (moving State.reset [.wr 2 5#32]).agenda = [.wr 2 5#32] ∧ (moving State.reset [.wr 9 5#32]).agenda = [.wr 9 5#32] ∧
    9 ≤ 9 := by decide

theorem witness_RegistersWhileInFlight :
    (busy (moving (inFlight State.reset 1#32) [.wr 0 2#32]) = true ∧
      (moving (inFlight State.reset 1#32) [.cmdStart 2#32]).agenda = [.cmdStart 2#32]) ∧
    busy (moving State.reset [.cmdStart 2#32]) = false ∧ (moving State.reset [.cmdStart 2#32]).agenda = [.cmdStart 2#32] := by
  decide

theorem witness_ReadsHaveNoSideEffect : (moving State.reset [.rd 1]).agenda = [.rd 1] ∧
    busy (moving State.reset [.ld 255]) = false ∧ 255 < State.reset.par.dmSize ∧ (moving State.reset [.ld 255]).agenda = [.ld 255] := by
  decide

theorem witness_HostStoresOneByte : busy (moving State.reset [.st 255 9#8]) = false ∧ 255 < State.reset.par.dmSize ∧
    (moving State.reset [.st 255 9#8]).agenda = [.st 255 9#8] := by decide

theorem witness_MemoryAccessOutsideProtocolStops :
    (busy (moving (inFlight State.reset 1#32) [.st 0 9#8]) = true ∧
      (moving (inFlight State.reset 1#32) [.st 0 9#8]).agenda = [.st 0 9#8]) ∧
    busy (moving State.reset [.ld 256]) = false ∧ State.reset.par.dmSize ≤ 256 ∧
      (moving State.reset [.ld 256]).agenda = [.ld 256] := by decide

theorem witness_InFlightAccessesChangeNothing :
    busy (moving State.reset [.cmdStart 1#32, .wr 4 2#32, .rd 1, .cmdFinish]) = false ∧
    (moving State.reset [.cmdStart 1#32, .wr 4 2#32, .rd 1, .cmdFinish]).agenda =
      .cmdStart 1#32 :: ([.wr 4 2#32, .rd 1] ++ .cmdFinish :: []) ∧
    ∀ m ∈ ([.wr 4 2#32, .rd 1] : List Move), (∃ n v, m = .wr n v) ∨ ∃ n, m = .rd n := by
  refine ⟨rfl, rfl, ?_⟩
  simp

theorem witness_WaitReadsStatusUntilNotBusy :
    ((moving State.reset [.wait 0, .ld 0]).agenda = .wait 0 :: [.ld 0] ∧ busy (moving State.reset [.wait 0, .ld 0]) = false) ∧
    (moving (inFlight State.reset 1#32) [.wait 2, .ld 0]).agenda = .wait 2 :: [.ld 0] ∧
      busy (moving (inFlight State.reset 1#32) [.wait 2, .ld 0]) = true := by decide

theorem witness_OnlyCmdWritesStartCommands : busy (moving State.reset [.st 255 9#8]) = false ∧
    (∃ t, step (moving State.reset [.st 255 9#8]) = .next t) ∧ (∀ w, Move.st 255 9#8 ≠ .wr 0 w) ∧
    (∀ w, Move.st 255 9#8 ≠ .cmdStart w) ∧ Move.st 255 9#8 ≠ .reset :=
  ⟨rfl, runs_next (by decide), nofun, nofun, nofun⟩

theorem witness_ParametersNeverChange : ∃ t, step (writing (ready (arr8 [7]) (arr8 [2]) 1) 6#32) = .next t :=
  runs_next (by decide +kernel)

/-- A state in the middle of a run: a command in flight, bytes in DM, a previous carry. -/
theorem witness_StepKeepsInvariant :
    (inFlight { ready (arr8 [7]) (arr8 [2]) 1 with status := 0x10#32 } 6#32).Inv ∧
    ∃ t, step (inFlight { ready (arr8 [7]) (arr8 [2]) 1 with status := 0x10#32 } 6#32) = .next t :=
  ⟨by unfold State.Inv; decide, runs_next (by decide +kernel)⟩

theorem witness_ProtocolHostNeverStops :
    HostObeys (moving State.reset [.st 255 9#8, .cmdStart 1#32, .rd 1, .cmdFinish, .ld 0, .cmdStart 1#32, .wait 3, .ld 0, .reset]) := by
  unfold HostObeys; decide

end Sys2Proof.Tests
end

section
/-! The parameters of the machine: nothing the engine or the host does changes them (spec/10_state.md R30), and
the invariant of the state holds at reset (spec/10_state.md R49). -/

namespace Sys2Proof.Machine

/-! ### No move writes the parameters -/

theorem CompletedFrom.par_eq {i : Instr} {s t : State} (h : CompletedFrom i s t) : t.par = s.par := by
  obtain ⟨e, r, co, bo, v, k, -, -, -, -, -, -, -, -, rfl⟩ := h
  rfl

theorem CommandEnds.par_eq {s t : State} (h : CommandEnds s t) : t.par = s.par := by
  rcases h with rfl | rfl | ⟨i, -, hc⟩
  · exact raiseStatus_par ..
  · exact raiseStatus_par ..
  · exact hc.par_eq

/-- Moves that run a command change the parameters no more than its end does; every other move is one named
update of the state. -/
theorem MoveTo.par_eq {s t : State} (h : MoveTo s t) : t.par = s.par := by
  cases h with
  | wrote n v => exact writeReg_par ..
  | started w => exact startCmd_par ..
  | wasReset => exact applyReset_par ..
  | waited _ _ hc => simpa using hc.par_eq
  | ran w _ _ hc => simpa using hc.par_eq
  | finished _ _ hc => exact hc.par_eq
  | stay | looked | stored | polled => rfl

/-- Settles O57, by the cases of what a move can do. -/
theorem parametersNeverChange : Obligations.ParametersNeverChange := by
  intro s t h
  exact (step_to h).par_eq.trans (withAgenda_par ..)

/-! ### The invariant at reset -/

/-- Settles O2: each field of the invariant is a small closed fact about the reset state. -/
theorem resetMeetsInvariant : Obligations.ResetMeetsInvariant := by
  have hpar : State.reset.par.wf = true := by decide
  have hcanonical : State.reset.dm.wf := List.Pairwise.nil
  have hinside : memInside State.reset.par State.reset.dm = true := rfl
  have hreserved : State.reset.status.extractLsb' 6 25 = 0#25 := by decide
  have hsound : outcomeSound State.reset = true := by decide
  have hdraw : State.reset.dmDraw < State.reset.drawNext := by decide
  exact ⟨hpar, hcanonical, hinside, hreserved, hsound, hdraw⟩

end Sys2Proof.Machine
end

section
/-! The invariant of the state is kept by every step: first what the end of a command does to it, then each move. -/

namespace Sys2Proof.Machine

/-! ### The outcome fields -/

/-- A packed `STATUS` is sound when a failure and each flag leave `RET` 0, and no two of them meet. -/
theorem outcomeSound_of_packStatus {s : State} {e : Err} {co bo : Bool} (hstatus : s.status = packStatus e co bo)
    (hret : s.ret.toNat ≤ 255) (hfail : e ≠ .ok → co = false ∧ bo = false ∧ s.ret = 0#32)
    (hco : co = true → bo = false ∧ s.ret = 0#32) (hbo : bo = true → s.ret = 0#32) : outcomeSound s = true := by
  obtain ⟨herr, hCO, hBO, -, -⟩ := fields_of_packStatus hstatus
  rw [outcomeSound_iff, herr, hCO, hBO]
  have hcode : errCode e ≤ 4 := by cases e <;> decide
  have hzero : errCode e = 0 ∨ co = false ∧ bo = false ∧ s.ret = 0#32 := by
    by_cases h : e = .ok
    · exact .inl (by rw [h]; rfl)
    · exact .inr (hfail h)
  have hone : ¬(co = true ∧ bo = true) := fun ⟨hc, hb⟩ => by simp [(hco hc).1] at hb
  exact ⟨hcode, hzero, hone, fun h => h.elim (fun hc => (hco hc).2) hbo, hret⟩

/-- The start of a command leaves the previous outcome in place (spec/70_reset_and_hazards.md R268). -/
@[simp] theorem outcomeSound_startCmd (w : Word) (s : State) : outcomeSound (startCmd w s) = outcomeSound s := by
  rw [Bool.eq_iff_iff]
  simp only [outcomeSound_iff, statusErr_startCmd, statusCO_startCmd, statusBO_startCmd, startCmd_ret]

/-! ### The end of a command -/

theorem State.Inv.raiseStatus {s : State} (h : s.Inv) (e : Err) : (raiseStatus e s).Inv := by
  obtain ⟨hpar, hwf, hinside, -, -, hdraw⟩ := h
  have hsound : outcomeSound (Machine.raiseStatus e s) = true :=
    outcomeSound_of_packStatus rfl (by simp) (by simp) (by simp) (by simp)
  exact ⟨hpar, hwf, hinside, packStatus_reserved .., hsound, hdraw⟩

/-- A completion writes inside `DM` because its result buffer passed validation. -/
theorem CompletedFrom.inv {i : Instr} {s t : State} (h : CompletedFrom i s t) (hok : operandsOk i s = true)
    (hinv : s.Inv) : t.Inv := by
  obtain ⟨e, r, co, bo, v, k, -, hlen, -, hret, hfail, hco, hbo, -, rfl⟩ := h
  obtain ⟨hpar, hwf, hinside, -, -, hdraw⟩ := hinv
  obtain ⟨-, -, -, hrange⟩ := operandsOk_base hok
  refine ⟨hpar, memWrite_wf hwf .., memInside_memWrite hinside r (by rw [hlen]; exact hrange),
    packStatus_reserved .., ?_, Nat.lt_add_right k hdraw⟩
  exact outcomeSound_of_packStatus rfl hret hfail (fun hc => (hco hc).2) (fun hb => (hbo hb).2.2)

theorem CommandEnds.inv {s t : State} (h : CommandEnds s t) (hinv : s.Inv) : t.Inv := by
  rcases h with rfl | rfl | ⟨i, hok, hc⟩
  · exact hinv.raiseStatus _
  · exact hinv.raiseStatus _
  · exact hc.inv hok hinv

/-! ### The other moves -/

/-- The agenda is no part of the invariant. -/
theorem State.Inv.withAgenda {s : State} (h : s.Inv) (l : List Move) : (withAgenda s l).Inv := h

theorem State.Inv.startCmd {s : State} (h : s.Inv) (w : Word) : (startCmd w s).Inv := by
  obtain ⟨hpar, hwf, hinside, hreserved, hsound, hdraw⟩ := h
  exact ⟨hpar, hwf, hinside, (reservedBits_setBusy s.status).trans hreserved,
    (outcomeSound_startCmd w s).trans hsound, hdraw⟩

theorem State.Inv.writeReg {s : State} (h : s.Inv) (n : Nat) (v : Word) : (writeReg s n v).Inv := by
  unfold Machine.writeReg
  split <;> exact h

theorem State.Inv.memPut {s : State} (h : s.Inv) {a : Nat} (ha : a < s.par.dmSize) (d : Byte) :
    { s with dm := memPut s.dm a d }.Inv := by
  obtain ⟨hpar, hwf, hinside, hreserved, hsound, hdraw⟩ := h
  exact ⟨hpar, memPut_wf hwf a d, memInside_memPut hinside ha d, hreserved, hsound, hdraw⟩

theorem State.Inv.applyReset {s : State} (h : s.Inv) : (applyReset s).Inv := by
  obtain ⟨hpar, -⟩ := h
  have hreserved : (Machine.applyReset s).status.extractLsb' 6 25 = 0#25 := by rw [applyReset_status]; decide
  have hsound : outcomeSound (Machine.applyReset s) = true :=
    outcomeSound_of_packStatus (e := .ok) (co := false) (bo := false) rfl (by simp) (by simp) (by simp) (by simp)
  exact ⟨hpar, List.Pairwise.nil, rfl, hreserved, hsound, Nat.lt_succ_self s.drawNext⟩

theorem MoveTo.inv {s t : State} (h : MoveTo s t) (hinv : s.Inv) : t.Inv := by
  cases h with
  | stay | looked | polled => exact hinv
  | wrote n v => exact hinv.writeReg n v
  | stored a d _ ha => exact hinv.memPut ha d
  | started w => exact hinv.startCmd w
  | wasReset => exact hinv.applyReset
  | waited _ _ hc => exact hc.inv (hinv.withAgenda _)
  | ran w _ _ hc => exact hc.inv (hinv.startCmd w)
  | finished _ _ hc => exact hc.inv hinv

/-- Settles O58, by the cases of what a move can do. -/
theorem stepKeepsInvariant : Obligations.StepKeepsInvariant := by
  intro s t hinv h
  exact (step_to h).inv (hinv.withAgenda _)

end Sys2Proof.Machine
end

section
/-! What a command leaves unchanged and what it depends on. Every command is one result, computed from its operands,
and then one write of that result; the statements about its inputs follow from that form. -/

namespace Sys2Proof.Machine

/-! ### What a command leaves unchanged -/

/-- A completion changes `DM` only in the result buffer. -/
theorem CompletedFrom.dmByte_outside {i : Instr} {s t : State} (h : CompletedFrom i s t) {x : Nat}
    (hx : x < resultBase i s ∨ resultBase i s + resultLen i s ≤ x) : dmByte t x = dmByte s x := by
  obtain ⟨e, r, co, bo, v, k, -, hlen, -, -, -, -, -, -, rfl⟩ := h
  simp only [dmByte, memGet_memWrite_outside s.dm r (hlen ▸ hx)]

/-- Settles O27: refused operands and a completion are the two cases. -/
theorem commandFrame : Obligations.CommandFrame := by
  intro i s t h
  rcases exec_cases i s with ⟨-, hbad⟩ | ⟨-, t', hok, hc⟩
  · cases hbad.symm.trans h
    exact ⟨rfl, rfl, rfl, rfl, rfl, rfl, rfl, rfl, rfl, rfl, fun _ _ => rfl⟩
  · cases hok.symm.trans h
    have hbytes := fun x => hc.dmByte_outside (x := x)
    obtain ⟨e, r, co, bo, v, k, -, -, -, -, -, -, -, -, rfl⟩ := hc
    exact ⟨rfl, rfl, rfl, rfl, rfl, rfl, rfl, rfl, rfl, rfl, hbytes⟩

/-! ### The bounds of `RET` -/

/-- `SHID` emits a decimal digit. -/
theorem execShid_ret_le {s t : State} (hok : operandsOk .shid s = true) (h : exec .shid s = .next t) :
    t.ret.toNat ≤ 9 := by
  cases (execShid_ok hok).symm.trans h
  have hc := radix_carry_le (R := 256) (m := 10) (by omega) (by omega) (by omega) _ (digitsBelow_256 (operandA s))
  rw [complete_ret, BitVec.toNat_ofNat]
  omega

/-- Settles O25: a refused command clears `RET`, and a completion sets it only in the radix conversions. -/
theorem retBoundPerCommand : Obligations.RetBoundPerCommand := by
  intro i s t h
  rcases exec_cases i s with ⟨-, hbad⟩ | ⟨hok, t', ht', hc⟩
  · cases hbad.symm.trans h
    simp
  · cases ht'.symm.trans h
    obtain ⟨e, r, co, bo, v, k, -, -, -, hret, -, -, -, honly, rfl⟩ := hc
    refine ⟨fun _ => hret, ?_, fun hb hd => ?_⟩
    · rintro rfl
      exact execShid_ret_le hok h
    · by_contra hv
      exact (honly hv).elim hb hd

/-! ### A command as a result and its write -/

/-- What a command does to its result buffer. -/
inductive Written where
  /-- Left as it was: the operands were refused. -/
  | nothing
  /-- Digits computed from the operands. -/
  | digits (r : Digits)
  /-- Free digits (log entries 13 and 14). -/
  | draw

/-- What a command ends with. -/
structure CommandResult where
  err : Err
  written : Written
  co : Bool
  bo : Bool
  ret : Word

/-- A completion with computed digits and no borrow. -/
def okResult (r : Digits) (co : Bool) (ret : Word) : CommandResult := ⟨.ok, .digits r, co, false, ret⟩

/-- Failed validation (spec/60_exceptions.md R233). -/
def refusedResult : CommandResult := ⟨.badOperand, .nothing, false, false, 0#32⟩

/-- The result of a subtraction: `none` is a broken contract (spec/43_sub.md R163). -/
def subResult : Option Digits → CommandResult
  | some d => ⟨.ok, .digits d, false, false, 0#32⟩
  | none => ⟨.ok, .draw, false, true, 0#32⟩

/-- The result of a division of arrays of `n` digits. -/
def divResult (n : Nat) : DivOutcome → CommandResult
  | .byZero => ⟨.divByZero, .draw, false, false, 0#32⟩
  | .overflow => ⟨.overflow, .digits (zeros n), false, false, 0#32⟩
  | .quotient d => ⟨.ok, .digits d, false, false, 0#32⟩
  | .unspecified => ⟨.ok, .draw, false, false, 0#32⟩

/-- The result of a command on valid operands `a`, `b` and `INT_DIGITS = k`. -/
def resultOf : Instr → Digits → Digits → Nat → CommandResult
  | .add, a, b, _ => okResult (addDigits a b).2 (carryFlag (addDigits a b).1) 0#32
  | .addx, a, b, _ =>
    okResult (BitVec.ofNat 8 (addDigits a (padTo a.length b)).1 :: (addDigits a (padTo a.length b)).2)
      (carryFlag (addDigits a (padTo a.length b)).1) 0#32
  | .sub, a, b, _ => subResult (subArrays a b)
  | .subx, a, b, _ => subResult (subArrays a b)
  | .mul, a, b, _ => okResult (mulDigits a b) false 0#32
  | .div, a, b, k => divResult a.length (divDigits a b k)
  | .shib, a, _, _ => okResult (radixStep 10 256 a).2 false (BitVec.ofNat 32 (radixStep 10 256 a).1)
  | .shid, a, _, _ => okResult (radixStep 256 10 a).2 false (BitVec.ofNat 32 (radixStep 256 10 a).1)

/-- The result of a command in a state, failed validation included. -/
def commandResult (i : Instr) (s : State) : CommandResult :=
  if operandsOk i s then resultOf i (operandA s) (operandB i s) s.intDigits.toNat else refusedResult

/-- Digit memory after the write at `base` of a result of `n` digits. -/
def Written.memory (w : Written) (base n : Nat) (s : State) : Memory :=
  match w with
  | .nothing => s.dm
  | .digits r => memWrite s.dm base r
  | .draw => memWrite s.dm base (drawDigits s n)

/-- How many draws a write takes. -/
def Written.draws : Written → Nat
  | .nothing => 0
  | .digits _ => 0
  | .draw => 1

/-- The write of a result of `n` digits at `base`. -/
def CommandResult.writeTo (c : CommandResult) (base n : Nat) (s : State) : State :=
  { s with
    dm := c.written.memory base n s
    status := packStatus c.err c.co c.bo
    ret := c.ret
    drawNext := s.drawNext + c.written.draws }

theorem completeSub_eq_writeTo {i : Instr} (hi : i = .sub ∨ i = .subx) (s : State) (r : Option Digits) :
    completeSub s r = (subResult r).writeTo (resultBase i s) (resultLen i s) s := by
  rcases hi with rfl | rfl <;> cases r <;> rfl

theorem completeDiv_eq_writeTo (s : State) (r : DivOutcome) :
    completeDiv s r = (divResult s.aLen.toNat r).writeTo s.rBase.toNat s.aLen.toNat s := by
  cases r <;> rfl

/-- Every command computes its result from its operands and then writes it. -/
theorem exec_eq_writeTo (i : Instr) (s : State) :
    exec i s = .next ((commandResult i s).writeTo (resultBase i s) (resultLen i s) s) := by
  unfold commandResult
  cases hok : operandsOk i s with
  | false => rw [exec_bad hok]; rfl
  | true =>
    rw [if_pos rfl]
    cases i with
    | add => rw [execAdd_ok hok]; rfl
    | addx => rw [execAddx_ok hok, resultOf, operandA_length]; rfl
    | sub => rw [execSub_ok hok, completeSub_eq_writeTo (.inl rfl)]; rfl
    | subx => rw [execSubx_ok hok, completeSub_eq_writeTo (.inr rfl)]; rfl
    | mul => rw [execMul_ok hok]; rfl
    | div => rw [execDiv_ok hok, completeDiv_eq_writeTo, resultOf, operandA_length]; rfl
    | shib => rw [execShib_ok hok]; rfl
    | shid => rw [execShid_ok hok]; rfl

/-! ### What a command depends on -/

/-- Two states agree on everything a command reads: the table of spec/10_state.md R33, and digit memory. -/
structure SameInputs (i : Instr) (s s' : State) : Prop where
  par : s'.par = s.par
  dm : s'.dm = s.dm
  dmDraw : s'.dmDraw = s.dmDraw
  aBase : s'.aBase = s.aBase
  aLen : s'.aLen = s.aLen
  bBase : i ≠ .shib → i ≠ .shid → s'.bBase = s.bBase
  rBase : i ≠ .shib → i ≠ .shid → s'.rBase = s.rBase
  bLen : i = .addx ∨ i = .subx ∨ i = .mul → s'.bLen = s.bLen
  intDigits : i = .div → s'.intDigits = s.intDigits

namespace SameInputs

variable {i : Instr} {s s' : State}

theorem memRead_eq (h : SameInputs i s s') (a n : Nat) : memRead s' a n = memRead s a n :=
  memRead_congr fun _ _ _ => by rw [dmByte, dmByte, h.dm, h.dmDraw]

theorem operandA_eq (h : SameInputs i s s') : operandA s' = operandA s := by
  rw [operandA, operandA, h.memRead_eq, h.aBase, h.aLen]

theorem bufLenB_eq (h : SameInputs i s s') : bufLenB i s' = bufLenB i s := by
  cases i <;> simp [bufLenB, h.aLen, h.bLen]

theorem operandB_eq (h : SameInputs i s s') (hb : i ≠ .shib) (hd : i ≠ .shid) : operandB i s' = operandB i s := by
  rw [operandB, operandB, h.memRead_eq, h.bufLenB_eq, h.bBase hb hd]

theorem resultLen_eq (h : SameInputs i s s') : resultLen i s' = resultLen i s := by
  cases i <;> simp [resultLen, h.aLen, h.bLen]

theorem resultBase_eq (h : SameInputs i s s') : resultBase i s' = resultBase i s := by
  cases i <;> simp [resultBase, h.aBase, h.rBase]

theorem operandsOk_eq (h : SameInputs i s s') : operandsOk i s' = operandsOk i s := by
  have hlenB := h.bufLenB_eq
  have hlenR := h.resultLen_eq
  have ha := h.operandA_eq
  obtain ⟨hpar, -, -, haBase, haLen, hbBase, hrBase, hbLen, hint⟩ := h
  cases i <;>
    simp_all [operandsOk, validALen, validBLen, validOrder, validIntDigits, validRangeA, validRanges, validDisjoint,
      validDecimal]

/-- A command's result depends on nothing but its inputs. -/
theorem commandResult_eq (h : SameInputs i s s') : commandResult i s' = commandResult i s := by
  rw [commandResult, commandResult, h.operandsOk_eq, h.operandA_eq]
  congr 1
  cases i with
  | div => rw [h.operandB_eq nofun nofun, h.intDigits rfl]
  | shib | shid => rfl
  | add | addx | sub | subx | mul => rw [h.operandB_eq nofun nofun]; rfl

/-- A command from a state with the same inputs: `f` says how the two states differ, before the command and after it. -/
theorem exec_next (h : SameInputs i s s') {t : State} (f : State → State)
    (hf : ∀ (c : CommandResult) (base n : Nat), c.writeTo base n s' = f (c.writeTo base n s)) (ht : exec i s = .next t) :
    exec i s' = .next (f t) := by
  rw [exec_eq_writeTo] at ht ⊢
  cases ht
  rw [h.commandResult_eq, h.resultBase_eq, h.resultLen_eq, hf]

end SameInputs

/-- Settles O31: none of the changed fields is an input, and the write of a result sets `STATUS` and `RET` anew. -/
theorem noCommandReadsOutcomesOrHistory : Obligations.NoCommandReadsOutcomesOrHistory := by
  intro i s t c st r ag rd h
  have hsame : SameInputs i s { s with cmd := c, status := st, ret := r, agenda := ag, reads := rd } :=
    ⟨rfl, rfl, rfl, rfl, rfl, fun _ _ => rfl, fun _ _ => rfl, fun _ => rfl, fun _ => rfl⟩
  exact hsame.exec_next (fun u => { u with cmd := c, agenda := ag, reads := rd }) (fun _ _ _ => rfl) h

/-- Settles O33: each ignored register is no input of the command, and the write of a result keeps it. -/
theorem ignoredRegistersHaveNoEffect : Obligations.IgnoredRegistersHaveNoEffect := by
  intro i s t x h
  refine ⟨fun haddx hsubx hmul => ?bLen, fun hdiv => ?intDigits, fun hin => ⟨?bBase, ?rBase⟩⟩
  case bLen =>
    have hsame : SameInputs i s { s with bLen := x } :=
      ⟨rfl, rfl, rfl, rfl, rfl, fun _ _ => rfl, fun _ _ => rfl, by simp [haddx, hsubx, hmul], fun _ => rfl⟩
    exact hsame.exec_next (fun u => { u with bLen := x }) (fun _ _ _ => rfl) h
  case intDigits =>
    have hsame : SameInputs i s { s with intDigits := x } :=
      ⟨rfl, rfl, rfl, rfl, rfl, fun _ _ => rfl, fun _ _ => rfl, fun _ => rfl, fun hi => absurd hi hdiv⟩
    exact hsame.exec_next (fun u => { u with intDigits := x }) (fun _ _ _ => rfl) h
  case bBase =>
    have hsame : SameInputs i s { s with bBase := x } :=
      ⟨rfl, rfl, rfl, rfl, rfl, fun hb hd => (hin.elim hb hd).elim, fun _ _ => rfl, fun _ => rfl, fun _ => rfl⟩
    exact hsame.exec_next (fun u => { u with bBase := x }) (fun _ _ _ => rfl) h
  case rBase =>
    have hsame : SameInputs i s { s with rBase := x } :=
      ⟨rfl, rfl, rfl, rfl, rfl, fun _ _ => rfl, fun hb hd => (hin.elim hb hd).elim, fun _ => rfl, fun _ => rfl⟩
    exact hsame.exec_next (fun u => { u with rBase := x }) (fun _ _ _ => rfl) h

end Sys2Proof.Machine
end

section
/-! The host's side: what canonical digit memory determines, and one rule for each move of the host, from which the
statements about host accesses, and about a command in flight between them, follow. -/

namespace Sys2Proof.Machine

/-! ### Canonical memories -/

/-- In a canonical memory the byte at an address is the listed one. -/
theorem memGet_eq_some_iff {m : Memory} (h : m.wf) (a : Nat) (v : Byte) : memGet m a = some v ↔ (a, v) ∈ m := by
  induction m with
  | nil => simp [memGet]
  | cons c m ih =>
    obtain ⟨b, w⟩ := c
    obtain ⟨hhead, htail⟩ := List.pairwise_cons.1 h
    rw [memGet, List.mem_cons, Prod.mk.injEq]
    split
    case isTrue hab =>
      subst hab
      have hnot : (a, v) ∉ m := fun hm => lt_irrefl a (hhead a (List.mem_map_of_mem hm))
      simp [hnot, eq_comm]
    case isFalse hab => simp [hab, ih htail]

/-- Settles O48: the two lists have the same cells, in strictly rising order of address. -/
theorem canonicalMemoriesAreEqualData : Obligations.CanonicalMemoriesAreEqualData := by
  intro m m' h h' hget
  have hmem : ∀ c : Host.Cell, c ∈ m ↔ c ∈ m' := fun ⟨a, v⟩ => by
    rw [← memGet_eq_some_iff h, ← memGet_eq_some_iff h', hget]
  have : Std.Antisymm fun c d : Host.Cell => c.1 < d.1 := ⟨fun _ _ hcd hdc => absurd hdc hcd.asymm⟩
  exact (List.pairwise_map.1 h).eq_of_mem_iff (List.pairwise_map.1 h') hmem

/-! ### Registers -/

theorem readReg_reserved (s : State) {n : Nat} (h : 9 ≤ n) : readReg s n = 0#32 := by
  obtain ⟨k, rfl⟩ := Nat.exists_eq_add_of_le' h
  rfl

theorem readReg_writeReg_same (s : State) {n : Nat} (h3 : 3 ≤ n) (h8 : n ≤ 8) (v : Word) :
    readReg (writeReg s n v) n = v := by
  interval_cases n <;> rfl

theorem readReg_writeReg_other (s : State) {k n : Nat} (h : k ≠ n) (v : Word) :
    readReg (writeReg s n v) k = readReg s k := by
  unfold writeReg
  split <;> simp only [readReg] <;> split <;> simp_all

/-- Writes to `STATUS`, `RET` and the reserved numbers are ignored (spec/10_state.md R39 to R41). -/
theorem writeReg_ignored (s : State) {n : Nat} (h : n < 3 ∨ 9 ≤ n) (v : Word) : writeReg s n v = s := by
  rcases h with h | h
  · interval_cases n <;> rfl
  · obtain ⟨k, rfl⟩ := Nat.exists_eq_add_of_le' h
    rfl

/-! ### One rule for each move -/

theorem step_of_agenda {s : State} {m : Move} {rest : List Move} (h : s.agenda = m :: rest) :
    step s = doMove m (withAgenda s rest) := by
  rw [step, nextMove, h]

theorem hostWrite_busy (s : State) (h : busy s = true) (n : Nat) (v : Word) : hostWrite n v s = .next s := by
  rw [hostWrite, if_pos h]

theorem hostWrite_cmd (s : State) (h : busy s = false) (w : Word) : hostWrite 0 w s = runCommand (startCmd w s) := by
  simp [hostWrite, h]

theorem hostWrite_idle (s : State) (h : busy s = false) {n : Nat} (hn : n ≠ 0) (v : Word) :
    hostWrite n v s = .next (writeReg s n v) := by
  simp [hostWrite, h, hn]

theorem hostStore_idle (s : State) (h : busy s = false) {a : Nat} (ha : a < s.par.dmSize) (d : Byte) :
    hostStore a d s = .next { s with dm := memPut s.dm a d } := by
  simp [hostStore, h, ha]

theorem beginCommand_idle (s : State) (h : busy s = false) (w : Word) : beginCommand w s = .next (startCmd w s) := by
  simp [beginCommand, h]

theorem engineMove_busy (s : State) (h : busy s = true) : engineMove s = runCommand s := if_pos h

theorem engineMove_idle (s : State) (h : busy s = false) : engineMove s = .next s := by simp [engineMove, h]

theorem runCommand_illegal {s : State} {e : DecodeReject} (h : decode s.cmd = .error e) :
    runCommand s = .next (raiseStatus .illegalCmd s) := by
  rw [runCommand, h]

theorem runCommand_legal {s : State} {i : Instr} (h : decode s.cmd = .ok i) : runCommand s = exec i s := by
  rw [runCommand, h]

/-! ### Reset -/

/-- Settles O1: each clause is one field of the reset state. -/
theorem resetRegistersZeroMemoryDrawn : Obligations.ResetRegistersZeroMemoryDrawn :=
  ⟨rfl, rfl, rfl, rfl, rfl, rfl, rfl, rfl, rfl, fun _ => rfl⟩

/-- Settles O5: `A_LEN = 0` fails the first validation item, and the word 0 has no opcode. -/
theorem noCommandTouchesMemoryBeforeALenIsSet : Obligations.NoCommandTouchesMemoryBeforeALenIsSet := by
  refine ⟨rfl, fun i s hlen => ?_, fun s rest ⟨hbusy, hagenda⟩ => ?_⟩
  · have hbad : operandsOk i s = false := by
      by_contra hok
      have hpos := (operandsOk_base (by simpa using hok)).1
      simp [hlen] at hpos
    exact exec_bad hbad
  · have hstep : step s = .next (raiseStatus .illegalCmd (startCmd 0#32 (withAgenda s rest))) := by
      rw [step_of_agenda hagenda, doMove, hostWrite_cmd (withAgenda s rest) hbusy]
      exact runCommand_illegal (show decode 0#32 = .error .opcodeUnassigned by decide)
    exact ⟨_, hstep, packStatus_err .illegalCmd false false, rfl⟩

/-! ### Host accesses of an idle engine -/

/-- Settles O49, by what a register reads after a write to it and to another. -/
theorem descriptorHoldsWhatWasWritten : Obligations.DescriptorHoldsWhatWasWritten := by
  intro s n v rest hbusy h3 h8 hagenda
  have hstep : step s = .next (writeReg (withAgenda s rest) n v) := by
    rw [step_of_agenda hagenda, doMove, hostWrite_idle (withAgenda s rest) hbusy (by omega)]
  refine ⟨_, hstep, readReg_writeReg_same _ h3 h8 v, fun k hk => readReg_writeReg_other _ hk v, ?_⟩
  simp

/-- Settles O50: a write in flight is ignored whatever its register, and these registers ignore every other write. -/
theorem readOnlyAndReservedRegisters : Obligations.ReadOnlyAndReservedRegisters := by
  refine ⟨fun s n v rest hn hagenda => ?_, fun s n => readReg_reserved s⟩
  rw [step_of_agenda hagenda, doMove]
  cases hbusy : busy s with
  | true => exact hostWrite_busy (withAgenda s rest) hbusy n v
  | false =>
    rw [hostWrite_idle (withAgenda s rest) hbusy (by omega), writeReg_ignored _ (by omega)]
    rfl

/-- Settles O53: a byte reads as the one written last, and a store touches nothing but `DM`. -/
theorem hostStoresOneByte : Obligations.HostStoresOneByte := by
  intro s a d rest hbusy ha hagenda
  have hstep : step s = .next { withAgenda s rest with dm := memPut s.dm a d } := by
    rw [step_of_agenda hagenda, doMove]
    exact hostStore_idle (withAgenda s rest) hbusy ha d
  refine ⟨_, hstep, ?_, fun x hx => ?_, fun n => rfl, rfl⟩
  · simp [dmByte]
  · simp [dmByte, memGet_memPut_other s.dm d hx]

/-- The moves that start no command and reset nothing leave an idle engine's `CMD`, `STATUS` and `RET` alone. -/
theorem doMove_keeps_outcome {m : Move} {s t : State} (hbusy : busy s = false) (hwr : ∀ w, m ≠ .wr 0 w)
    (hstart : ∀ w, m ≠ .cmdStart w) (hreset : m ≠ .reset) (h : doMove m s = .next t) :
    t.cmd = s.cmd ∧ t.status = s.status ∧ t.ret = s.ret := by
  cases m with
  | wr n v =>
    have hn : n ≠ 0 := fun h0 => hwr v (by rw [h0])
    rw [doMove, hostWrite_idle s hbusy hn] at h
    cases h
    simp
  | rd n =>
    cases h
    simp
  | st a d | ld a =>
    simp only [doMove, hostStore, hostLoad, hbusy, Bool.false_eq_true, if_false] at h
    split at h
    · cases h
      simp
    · contradiction
  | cmdStart v => exact absurd rfl (hstart v)
  | cmdFinish =>
    rw [doMove, engineMove_idle s hbusy] at h
    cases h
    simp
  | wait k =>
    rw [doMove, hostWait_idle hbusy] at h
    cases h
    simp
  | reset => exact absurd rfl hreset

/-- Settles O56, move by move. -/
theorem onlyCmdWritesStartCommands : Obligations.OnlyCmdWritesStartCommands := by
  intro s t m rest hbusy hagenda hwr hstart hreset h
  rw [step_of_agenda hagenda] at h
  obtain ⟨hcmd, hstatus, hret⟩ := doMove_keeps_outcome (s := withAgenda s rest) hbusy hwr hstart hreset h
  have hidle : busy t = busy s := by rw [busy, busy, hstatus, withAgenda_status]
  exact ⟨hcmd, hstatus, hret, hidle.trans hbusy⟩

/-! ### A command in flight -/

/-- The command in flight does not read the host's record. -/
theorem runCommand_reads {s t : State} (h : runCommand s = .next t) (rd : List BusRead) :
    runCommand { s with reads := rd } = .next { t with reads := rd } := by
  cases hd : decode s.cmd with
  | error e =>
    rw [runCommand_illegal hd] at h
    cases h
    exact runCommand_illegal hd
  | ok i =>
    rw [runCommand_legal hd] at h
    have hsame : SameInputs i s { s with reads := rd } :=
      ⟨rfl, rfl, rfl, rfl, rfl, fun _ _ => rfl, fun _ _ => rfl, fun _ => rfl, fun _ => rfl⟩
    have hexec := hsame.exec_next (fun u => { u with reads := rd }) (fun _ _ _ => rfl) h
    exact (runCommand_legal (s := { s with reads := rd }) hd).trans hexec

/-- A host read or write of a register. -/
def RegisterAccess (m : Move) : Prop := (∃ n v, m = .wr n v) ∨ ∃ n, m = .rd n

/-- While a command is in flight a register access changes nothing but the host's record. -/
theorem doMove_access_busy {m : Move} (hm : RegisterAccess m) {s : State} (h : busy s = true) :
    ∃ rd, doMove m s = .next { s with reads := rd } := by
  rcases hm with ⟨n, v, rfl⟩ | ⟨n, rfl⟩
  · exact ⟨s.reads, hostWrite_busy s h n v⟩
  · exact ⟨_, rfl⟩

/-- One step of a run is the step and then the rest of the run. -/
theorem run_succ_of_step {M : Host.Core} {s t : M.State} (h : M.step s = .next t) (k : Nat) :
    M.run (k + 1) s = M.run k t := by
  rw [Host.Core.run, h]

/-- A command in flight, the host's register accesses and then the completion: the command runs as if only it was
to come, but for the host's record. -/
theorem run_accesses_then_finish {ms rest : List Move} (hms : ∀ m ∈ ms, RegisterAccess m)
    {s t : State} (hbusy : busy s = true) (hagenda : s.agenda = ms ++ .cmdFinish :: rest)
    (ht : runCommand (withAgenda s rest) = .next t) :
    ∃ rd, Sys2Proof.core.run (ms.length + 1) s = .next { t with reads := rd } := by
  induction ms generalizing s t with
  | nil =>
    have hstep : step s = .next t := by rw [step_of_agenda hagenda, doMove, engineMove_busy (withAgenda s rest) hbusy, ht]
    exact ⟨t.reads, run_succ_of_step (M := Sys2Proof.core) hstep 0⟩
  | cons m ms ih =>
    obtain ⟨rd, hmove⟩ := doMove_access_busy (hms m List.mem_cons_self)
      (s := withAgenda s (ms ++ .cmdFinish :: rest)) hbusy
    have hstep := (step_of_agenda hagenda).trans hmove
    obtain ⟨rd', hrun⟩ := ih (fun m' hm' => hms m' (List.mem_cons_of_mem m hm'))
      (s := { withAgenda s (ms ++ .cmdFinish :: rest) with reads := rd }) hbusy rfl (runCommand_reads ht rd)
    exact ⟨rd', (run_succ_of_step (M := Sys2Proof.core) hstep (ms.length + 1)).trans hrun⟩

/-- Settles O55: both forms run the command from its start, the one at once and the other after the accesses. -/
theorem inFlightAccessesChangeNothing : Obligations.InFlightAccessesChangeNothing := by
  intro s w ms rest hbusy hagenda hms
  obtain ⟨u, hu, -⟩ := runCommand_ends (startCmd w (withAgenda s rest))
  have hone : step { s with agenda := .wr 0 w :: rest } = .next u :=
    (hostWrite_cmd (withAgenda s rest) hbusy w).trans hu
  have hstart : step s = .next (startCmd w (withAgenda s (ms ++ .cmdFinish :: rest))) := by
    rw [step_of_agenda hagenda]
    exact beginCommand_idle (withAgenda s (ms ++ .cmdFinish :: rest)) hbusy w
  obtain ⟨rd, hrun⟩ := run_accesses_then_finish hms
    (busy_startCmd w (withAgenda s (ms ++ .cmdFinish :: rest))) rfl hu
  exact ⟨_, u, (run_succ_of_step (M := Sys2Proof.core) hstart (ms.length + 1)).trans hrun, hone, rfl⟩

end Sys2Proof.Machine
end

section
/-! Digit memory: what a read of it answers, what a write of an array leaves at each address, and what a command
started by the host has done to it, by the status the command ends with (spec/20_memory.md R66, R71, R73). -/

namespace Sys2Proof.Machine

/-! ### Reads and writes, byte by byte -/

theorem memRead_getElem? (s : State) (a : Nat) {n k : Nat} (h : k < n) :
    (memRead s a n)[k]? = some (dmByte s (a + k)) := by
  rw [List.getElem?_eq_getElem (by simpa using h), memRead_getElem]

/-- A state whose memory is that of another after the write of an array holds the array's digits there. -/
theorem dmByte_of_memWrite {t : State} {m : Memory} {a : Nat} {v : Digits} (ht : t.dm = memWrite m a v) {k : Nat}
    (h : k < v.length) : dmByte t (a + k) = v[k] := by
  rw [dmByte, ht, memGet_memWrite, if_pos (by omega), Nat.add_sub_cancel_left, List.getElem?_eq_getElem h,
    Option.getD_some]

/-- Settles O47, by what memory lists at an address after the write of an array. -/
theorem memReadAndMemWriteByteByByte : Obligations.MemReadAndMemWriteByteByByte := by
  intro s a v n
  refine ⟨memRead_length s a n, fun k hk => memRead_getElem? s a hk, fun k hk => ?_, fun x hx => ?_⟩
  · rw [List.getElem?_eq_getElem hk, dmByte_of_memWrite rfl hk]
  · simp only [dmByte, memGet_memWrite_outside s.dm v hx]

/-! ### Host reads -/

theorem hostLoad_idle (s : State) (h : busy s = false) {a : Nat} (ha : a < s.par.dmSize) :
    hostLoad a s = .next { s with reads := .byte a (dmByte s a) :: s.reads } := by
  simp [hostLoad, h, ha]

/-- Settles O52: the taken move and the record are all that a read's rule changes. -/
theorem readsHaveNoSideEffect : Obligations.ReadsHaveNoSideEffect := by
  refine ⟨fun s n rest hagenda => ?_, fun s a rest hbusy ha hagenda => ?_⟩
  · rw [step_of_agenda hagenda]
    rfl
  · rw [step_of_agenda hagenda, doMove]
    exact hostLoad_idle (withAgenda s rest) hbusy ha

/-! ### The host's write of `CMD` -/

theorem decode_encode (i : Instr) : decode (encode i) = .ok i := by
  cases i <;> rfl

/-- The write of an illegal word to `CMD` of an idle engine (spec/60_exceptions.md R234). -/
theorem step_writesCmd_illegal {s : State} {w : Word} {rest : List Move} (hw : Spec.writesCmd s w rest)
    {e : DecodeReject} (hd : decode w = .error e) :
    step s = .next (raiseStatus .illegalCmd (startCmd w (withAgenda s rest))) := by
  obtain ⟨hbusy, hagenda⟩ := hw
  rw [step_of_agenda hagenda, doMove, hostWrite_cmd (withAgenda s rest) hbusy,
    runCommand_illegal (s := startCmd w (withAgenda s rest)) hd]

/-- The write of a legal word to `CMD` of an idle engine ends as its command does from the state before the write,
but for the stored word and the taken move: no command reads either of them. -/
theorem step_writesCmd_legal {s u : State} {w : Word} {rest : List Move} (hw : Spec.writesCmd s w rest) {i : Instr}
    (hd : decode w = .ok i) (hu : exec i s = .next u) :
    step s = .next { u with cmd := w, agenda := rest, reads := s.reads } := by
  obtain ⟨hbusy, hagenda⟩ := hw
  rw [step_of_agenda hagenda, doMove, hostWrite_cmd (withAgenda s rest) hbusy,
    runCommand_legal (s := startCmd w (withAgenda s rest)) hd]
  exact noCommandReadsOutcomesOrHistory i s u w (setBusy s.status) s.ret rest s.reads hu

/-! ### Memory after a command -/

/-- Only `DIV` fails on valid operands (spec/60_exceptions.md R231, R232). -/
theorem resultOf_err_ok {i : Instr} (hi : i ≠ .div) (a b : Digits) (k : Nat) : (resultOf i a b k).err = .ok := by
  cases i with
  | add | addx | mul | shib | shid => rfl
  | sub | subx => cases h : subArrays a b <;> simp [resultOf, subResult, h]
  | div => exact absurd rfl hi

theorem statusErr_writeTo (c : CommandResult) (base n : Nat) (s : State) :
    statusErr (c.writeTo base n s) = errCode c.err := packStatus_err ..

/-- A command succeeds, or it fails in one of three ways, and each of them fixes the next state. -/
theorem exec_failures {i : Instr} {s u : State} (h : exec i s = .next u) :
    statusErr u = 0 ∨ u = raiseStatus .badOperand s ∨
      u = raiseWith .overflow s.rBase.toNat (zeros s.aLen.toNat) s ∨
      u = useDraw (raiseWith .divByZero s.rBase.toNat (drawDigits s s.aLen.toNat) s) := by
  cases hok : operandsOk i s with
  | false =>
    cases (exec_bad hok).symm.trans h
    exact .inr (.inl rfl)
  | true =>
    by_cases hi : i = .div
    · subst hi
      cases (execDiv_ok hok).symm.trans h
      cases divDigits (operandA s) (operandB .div s) s.intDigits.toNat with
      | byZero => exact .inr (.inr (.inr rfl))
      | overflow => exact .inr (.inr (.inl rfl))
      | quotient _ | unspecified => exact .inl (packStatus_err .ok false false)
    · cases (exec_eq_writeTo i s).symm.trans h
      rw [statusErr_writeTo, commandResult, if_pos hok, resultOf_err_ok hi]
      exact .inl rfl

/-- The three failures by their codes: bad operands write nothing, an overflow zeros, a zero divisor a draw. -/
theorem exec_memory_of_err {i : Instr} {s u : State} (h : exec i s = .next u) :
    statusErr u ≠ 4 ∧ (statusErr u = 3 → u = raiseStatus .badOperand s) ∧
      (statusErr u = 2 → u.dm = memWrite s.dm s.rBase.toNat (zeros s.aLen.toNat)) ∧
      (statusErr u = 1 → u.dm = memWrite s.dm s.rBase.toNat (drawDigits s s.aLen.toNat)) := by
  rcases exec_failures h with herr | rfl | rfl | rfl
  · simp [herr]
  · have herr : statusErr (raiseStatus .badOperand s) = 3 := packStatus_err .badOperand false false
    simp [herr]
  · have herr : statusErr (raiseWith .overflow s.rBase.toNat (zeros s.aLen.toNat) s) = 2 :=
      packStatus_err .overflow false false
    simp [herr]
  · have herr : statusErr (useDraw (raiseWith .divByZero s.rBase.toNat (drawDigits s s.aLen.toNat) s)) = 1 :=
      packStatus_err .divByZero false false
    simp [herr]

theorem exec_dmByte_outside {i : Instr} {s u : State} (h : exec i s = .next u) {x : Nat}
    (hx : x < resultBase i s ∨ resultBase i s + resultLen i s ≤ x) : dmByte u x = dmByte s x := by
  obtain ⟨-, -, -, -, -, -, -, -, -, -, hbytes⟩ := commandFrame i s u h
  exact hbytes x hx

theorem operandsOk_disjoint {i : Instr} {s : State} (h : operandsOk i s = true) (hb : i ≠ .shib) (hd : i ≠ .shid) :
    validDisjoint i s = true := by
  rw [operandsOk_iff] at h
  cases i with
  | add | addx | sub | subx | mul | div =>
    obtain ⟨-, -, hdisjoint⟩ := h
    exact hdisjoint
  | shib => exact absurd rfl hb
  | shid => exact absurd rfl hd

theorem resultBase_eq_rBase {i : Instr} (hb : i ≠ .shib) (hd : i ≠ .shid) (s : State) :
    resultBase i s = s.rBase.toNat := by
  cases i with
  | shib => exact absurd rfl hb
  | shid => exact absurd rfl hd
  | add | addx | sub | subx | mul | div => rfl

/-- Item 6 of R238 keeps the sources of a command with a result buffer of its own out of that buffer. -/
theorem exec_keeps_sources {i : Instr} {s u : State} (h : exec i s = .next u) (hb : i ≠ .shib) (hd : i ≠ .shid) :
    (∀ x, s.aBase.toNat ≤ x → x < s.aBase.toNat + s.aLen.toNat → dmByte u x = dmByte s x) ∧
      ∀ x, s.bBase.toNat ≤ x → x < s.bBase.toNat + bufLenB i s → dmByte u x = dmByte s x := by
  cases hok : operandsOk i s with
  | false =>
    cases (exec_bad hok).symm.trans h
    exact ⟨fun _ _ _ => rfl, fun _ _ _ => rfl⟩
  | true =>
    obtain ⟨ha, hb'⟩ := (validDisjoint_iff i s).1 (operandsOk_disjoint hok hb hd)
    rw [← resultBase_eq_rBase hb hd s] at ha hb'
    exact ⟨fun x _ _ => exec_dmByte_outside h (by omega), fun x _ _ => exec_dmByte_outside h (by omega)⟩

/-- Settles O28: an illegal word writes nothing. A legal word's command writes its result buffer alone, what it
writes there when it fails follows from the code, and its sources lie outside that buffer. -/
theorem memoryAfterEachOutcome : Obligations.MemoryAfterEachOutcome := by
  intro s w rest t hw ht
  cases hdec : decode w with
  | error e =>
    cases (step_writesCmd_illegal hw hdec).symm.trans ht
    have herr : statusErr (raiseStatus .illegalCmd (startCmd w (withAgenda s rest))) = 4 :=
      packStatus_err .illegalCmd false false
    refine ⟨fun _ _ _ _ => rfl, fun _ _ => rfl, by simp [herr], by simp [herr], fun _ _ _ _ => ?_⟩
    exact ⟨memRead_congr fun _ _ _ => rfl, memRead_congr fun _ _ _ => rfl⟩
  | ok i =>
    have hu := exec_eq_writeTo i s
    generalize (commandResult i s).writeTo (resultBase i s) (resultLen i s) s = u at hu
    cases (step_writesCmd_legal hw hdec hu).symm.trans ht
    have honly : ∀ j, w = encode j → j = i := fun j hj => by
      rw [hj, decode_encode] at hdec
      exact Except.ok.inj hdec
    obtain ⟨hnot4, hbad, hover, hzero⟩ := exec_memory_of_err hu
    refine ⟨fun j hj x hx => ?outside, fun herr x => ?refused, fun herr k hk => ?overflow, fun herr k hk => ?byZero,
      fun j hj hb hd => ?sources⟩
    case outside =>
      cases honly j hj
      exact exec_dmByte_outside hu hx
    case refused =>
      cases hbad (herr.resolve_left hnot4)
      rfl
    case overflow =>
      refine (dmByte_of_memWrite (hover herr) (by simpa using hk)).trans ?_
      simp [zeros]
    case byZero =>
      refine (dmByte_of_memWrite (hzero herr) (by simpa using hk)).trans ?_
      simp [drawDigits]
    case sources =>
      cases honly j hj
      obtain ⟨ha, hb⟩ := exec_keeps_sources hu hb hd
      exact ⟨memRead_congr ha, memRead_congr hb⟩

end Sys2Proof.Machine
end

section
/-! Command words: the decoder as a test of the two fields of a word, so that the words of the eight commands are the
only legal ones (spec/30_encoding.md R94, R95), and a step on the write of such a word to `CMD` (R92). -/

namespace Sys2Proof.Machine

/-! ### The fields of a word -/

theorem word_eq_fields (w : Word) : w = rsvdField w ++ opcodeField w := by
  rw [rsvdField, opcodeField, BitVec.extractLsb'_append_extractLsb'_eq_extractLsb' (by rfl)]
  exact BitVec.extractLsb'_eq_self.symm

theorem rsvdField_eq_zero_iff (w : Word) : rsvdField w = 0#24 ↔ w.toNat / 256 = 0 := by
  have hw := w.isLt
  rw [← BitVec.toNat_inj, rsvdField, BitVec.extractLsb'_toNat, Nat.shiftRight_eq_div_pow, BitVec.toNat_ofNat]
  omega

theorem opcodeField_toNat (w : Word) : (opcodeField w).toNat = w.toNat % 256 := by
  rw [opcodeField, BitVec.extractLsb'_toNat, Nat.shiftRight_zero]

/-- A word is a command's word exactly when `RSVD` is 0 and `OPCODE` is the command's. -/
theorem eq_encode_iff (w : Word) (i : Instr) : w = encode i ↔ rsvdField w = 0#24 ∧ opcodeField w = opcodeOf i := by
  constructor
  · rintro rfl
    cases i <;> decide
  · rintro ⟨hrsvd, hop⟩
    rw [word_eq_fields w, hrsvd, hop, encode]

/-! ### The decoder -/

/-- The opcode map is one to one. -/
theorem decodeOpcode_eq_ok_iff (op : Byte) (i : Instr) : decodeOpcode op = .ok i ↔ op = opcodeOf i := by
  constructor
  · intro h
    unfold decodeOpcode at h
    split at h <;> cases h <;> exact BitVec.eq_of_toNat_eq ‹_›
  · rintro rfl
    cases i <;> rfl

/-- The opcodes that are assigned are 0x01 to 0x08. -/
theorem exists_eq_opcodeOf_iff (op : Byte) : (∃ i, op = opcodeOf i) ↔ 1 ≤ op.toNat ∧ op.toNat ≤ 8 := by
  constructor
  · rintro ⟨i, rfl⟩
    cases i <;> decide
  · rintro ⟨hlow, hhigh⟩
    interval_cases hop : op.toNat
    · exact ⟨.add, BitVec.eq_of_toNat_eq hop⟩
    · exact ⟨.addx, BitVec.eq_of_toNat_eq hop⟩
    · exact ⟨.sub, BitVec.eq_of_toNat_eq hop⟩
    · exact ⟨.subx, BitVec.eq_of_toNat_eq hop⟩
    · exact ⟨.mul, BitVec.eq_of_toNat_eq hop⟩
    · exact ⟨.div, BitVec.eq_of_toNat_eq hop⟩
    · exact ⟨.shib, BitVec.eq_of_toNat_eq hop⟩
    · exact ⟨.shid, BitVec.eq_of_toNat_eq hop⟩

theorem decode_eq_ok_iff (w : Word) (i : Instr) : decode w = .ok i ↔ w = encode i := by
  rw [eq_encode_iff, ← decodeOpcode_eq_ok_iff, decode]
  split <;> simp [*]

/-- Settles O8: the reserved field is 0, and the opcode is one of the assigned ones. -/
theorem onlyEightWordsAreCommands : Obligations.OnlyEightWordsAreCommands := by
  intro w
  refine ⟨decode_eq_ok_iff w, ?_⟩
  simp only [decode_eq_ok_iff, eq_encode_iff, exists_and_left, exists_eq_opcodeOf_iff, rsvdField_eq_zero_iff,
    opcodeField_toNat]

/-- Settles O6: the eight words are the encodings of the commands. -/
theorem eightWordsDecode : Obligations.EightWordsDecode :=
  ⟨decode_encode .add, decode_encode .addx, decode_encode .sub, decode_encode .subx, decode_encode .mul,
    decode_encode .div, decode_encode .shib, decode_encode .shid⟩

/-! ### Table words -/

theorem tableWord_32 (w : Nat) : tableWord 32 w = BitVec.ofNat 32 w :=
  BitVec.eq_of_toNat_eq (by simp [tableWord])

theorem decodeTableWord_eq_some_iff (nbits w : Nat) (i : Instr) :
    decodeTableWord nbits w = some i ↔ decode (tableWord nbits w) = .ok i := by
  rw [decodeTableWord]
  cases decode (tableWord nbits w) <;> simp

/-- Settles O7: a 32-bit table word is the command word itself. -/
theorem decodeUndoesEncode : Obligations.DecodeUndoesEncode := by
  intro i _
  refine ⟨decode_encode i, ?_⟩
  rw [decodeTableWord_eq_some_iff, tableWord_32, BitVec.ofNat_toNat, BitVec.setWidth_eq]
  exact decode_encode i

/-! ### The step on a command word -/

theorem instr_wf_eq_true (i : Instr) : i.wf = true := by
  cases i <;> rfl

/-- Settles O10: the host's write of `CMD` starts the command and runs it. -/
theorem stepRunsDecodedCommand : Obligations.StepRunsDecodedCommand := by
  rintro s w rest i ⟨hbusy, hagenda⟩ - hd
  rw [step_of_agenda hagenda, doMove, hostWrite_cmd (withAgenda s rest) hbusy]
  exact runCommand_legal (s := startCmd w (withAgenda s rest)) hd

/-- Settles O11: the state before the write and the one in which the command runs differ only in what no command
reads, and the command itself keeps the agenda and the record. -/
theorem nextStepRunsFetchWord : Obligations.NextStepRunsFetchWord := by
  intro s w i h
  rw [decodeTableWord_eq_some_iff, tableWord_32] at h
  have hu := exec_eq_writeTo i s
  have hrun := noCommandReadsOutcomesOrHistory i s _ (BitVec.ofNat 32 w) (setBusy (clearBusy s.status)) s.ret s.agenda
    s.reads hu
  have hstep := stepRunsDecodedCommand (aboutToWriteCmd (BitVec.ofNat 32 w) s) _ s.agenda i
    ⟨busy_aboutToWriteCmd .., rfl⟩ (instr_wf_eq_true i) h
  refine ⟨_, ?_, _, hu, rfl⟩
  rw [State.withFetchWord, tableWord_32]
  exact hstep.trans hrun

end Sys2Proof.Machine
end

section
/-! What the host sees of a command in `STATUS`: the fields a completion leaves, and a `WAIT` that reads them until `BUSY`
is 0 (spec/10_state.md R36, R37, R39, spec/30_encoding.md R93, R99). -/

namespace Sys2Proof.Machine

/-! ### The fields after a command -/

/-- Settles O29: both ends of a command pack their `STATUS`, a refusal with code 3 and a completion with one below it. -/
theorem statusFieldsAfterEveryCommand : Obligations.StatusFieldsAfterEveryCommand := by
  intro i s t h
  rcases exec_cases i s with ⟨-, hbad⟩ | ⟨-, t', hok, hc⟩
  · cases hbad.symm.trans h
    obtain ⟨herr, hCO, hBO, hidle, hreserved⟩ := fields_of_packStatus (raiseStatus_status .badOperand s)
    exact ⟨hidle, hreserved, herr.le, by simp [hCO], by simp [hBO], fun _ => ⟨hCO, hBO, rfl⟩⟩
  · cases hok.symm.trans h
    obtain ⟨e, r, co, bo, v, k, ⟨-, hlegal⟩, -, -, -, hfail, hco, hbo, -, ht⟩ := hc
    have hret : t.ret = v := by rw [ht]
    obtain ⟨herr, hCO, hBO, hidle, hreserved⟩ := fields_of_packStatus (s := t) (by rw [ht])
    have hcode : errCode e ≤ 3 := by
      cases e with
      | illegalCmd => exact absurd rfl hlegal
      | ok | divByZero | overflow | badOperand => decide
    rw [herr, hCO, hBO, hret]
    exact ⟨hidle, hreserved, hcode, fun hc => (hco hc).1, fun hb => (hbo hb).1,
      fun hne => hfail fun he => hne (by rw [he]; rfl)⟩

/-! ### Waiting -/

theorem readReg_status_busy (s : State) : (readReg s 1).getLsbD 31 = busy s := by
  simp [readReg, statusRead, busy]

theorem CommandEnds.busy_eq {s t : State} (h : CommandEnds s t) : busy t = false := by
  rcases h with rfl | rfl | ⟨i, -, e, r, co, bo, v, k, -, -, -, -, -, -, -, -, rfl⟩ <;> exact packStatus_busy ..

theorem CommandEnds.agenda_reads_eq {s t : State} (h : CommandEnds s t) : t.agenda = s.agenda ∧ t.reads = s.reads := by
  rcases h with rfl | rfl | ⟨i, -, e, r, co, bo, v, k, -, -, -, -, -, -, -, -, rfl⟩ <;> exact ⟨rfl, rfl⟩

/-- The command in flight does not depend on what the host has still to do. -/
theorem runCommand_agenda {s t : State} (h : runCommand s = .next t) (l : List Move) :
    runCommand (withAgenda s l) = .next (withAgenda t l) := by
  cases hd : decode s.cmd with
  | error e =>
    cases (runCommand_illegal hd).symm.trans h
    exact runCommand_illegal hd
  | ok i =>
    rw [runCommand_legal hd] at h
    have hsame : SameInputs i s (withAgenda s l) :=
      ⟨rfl, rfl, rfl, rfl, rfl, fun _ _ => rfl, fun _ _ => rfl, fun _ => rfl, fun _ => rfl⟩
    have hexec := hsame.exec_next (withAgenda · l) (fun _ _ _ => rfl) h
    exact (runCommand_legal (s := withAgenda s l) hd).trans hexec

theorem step_wait_idle {s : State} (hbusy : busy s = false) {k : Nat} {rest : List Move}
    (hagenda : s.agenda = .wait k :: rest) :
    step s = .next { s with agenda := rest, reads := .reg 1 (readReg s 1) :: s.reads } := by
  rw [step_of_agenda hagenda, doMove, hostWait_idle (s := withAgenda s rest) hbusy]
  rfl

/-- A wait that is to find the command in flight once more. -/
theorem step_wait_polls {s : State} (hbusy : busy s = true) {k : Nat} {rest : List Move}
    (hagenda : s.agenda = .wait (k + 1) :: rest) :
    step s = .next { s with agenda := .wait k :: rest, reads := .reg 1 (readReg s 1) :: s.reads } := by
  rw [step_of_agenda hagenda, doMove, hostWait, if_pos (show busy (withAgenda s rest) = true from hbusy)]
  rfl

/-- The engine completes the command during the wait, which is still to make its last read. -/
theorem step_wait_completes {s u : State} (hbusy : busy s = true) {rest : List Move}
    (hagenda : s.agenda = .wait 0 :: rest) (hu : runCommand (withAgenda s rest) = .next u) :
    step s = .next (withAgenda u (.wait 0 :: rest)) := by
  rw [step_of_agenda hagenda, doMove, hostWait, if_pos (show busy (withAgenda s rest) = true from hbusy)]
  exact runCommand_agenda hu (.wait 0 :: rest)

theorem core_run_succ {s t : State} (h : step s = .next t) (k : Nat) :
    Sys2Proof.core.run (k + 1) s = Sys2Proof.core.run k t :=
  run_succ_of_step (M := Sys2Proof.core) h k

/-- A wait for a command in flight, by the number of reads that find it so. -/
theorem run_wait {k : Nat} {rest : List Move} {s u : State} (hbusy : busy s = true)
    (hagenda : s.agenda = .wait k :: rest) (hu : runCommand (withAgenda s rest) = .next u) :
    Sys2Proof.core.run (k + 2) s = .next { u with
      reads := .reg 1 (readReg u 1) :: (List.replicate k (.reg 1 (readReg s 1)) ++ s.reads) } := by
  induction k generalizing s u with
  | zero =>
    have hends := runCommand_next hu
    have hlast := step_wait_idle (s := withAgenda u (.wait 0 :: rest)) hends.busy_eq rfl
    rw [core_run_succ (step_wait_completes hbusy hagenda hu), core_run_succ hlast]
    obtain ⟨hrest, hreads⟩ := hends.agenda_reads_eq
    rw [withAgenda_agenda] at hrest
    rw [withAgenda_reads] at hreads
    rw [← hrest, ← hreads]
    rfl
  | succ k ih =>
    have hpoll := step_wait_polls hbusy hagenda
    have hrun := ih (s := { s with agenda := .wait k :: rest, reads := .reg 1 (readReg s 1) :: s.reads }) hbusy rfl
      (runCommand_reads hu (.reg 1 (readReg s 1) :: s.reads))
    rw [core_run_succ hpoll, List.replicate_succ', List.append_assoc]
    exact hrun

/-- Settles O60, by induction on the number of reads that find the command in flight. -/
theorem waitReadsStatusUntilNotBusy : Obligations.WaitReadsStatusUntilNotBusy := by
  intro s k rest hagenda
  simp only [readReg_status_busy]
  refine ⟨fun hbusy => ⟨hbusy, step_wait_idle hbusy hagenda⟩, fun hbusy => ?_⟩
  obtain ⟨u, hu, hends⟩ := runCommand_ends (withAgenda s rest)
  exact ⟨hbusy, u, hu, hends.busy_eq, run_wait hbusy hagenda hu⟩

end Sys2Proof.Machine
end

section
/-! The bit and array primitives in numbers: what each one does to the value of its array (spec/40_primitives.md R121 to
R128), digit by digit. -/

namespace Sys2Proof.Machine

/-! ### The first digit of an array -/

theorem val_cons (d : Byte) (ds : Digits) : val (d :: ds) = d.toNat * 256 ^ ds.length + val ds := rfl

theorem val_append (a b : Digits) : val (a ++ b) = val a * 256 ^ b.length + val b := valIn_append 256 a b

theorem val_zeros (n : Nat) : val (zeros n) = 0 := valIn_zeros 256 n

/-- An array's first digit and the others share no bit of its value. -/
theorem val_cons_or (d : Byte) (ds : Digits) : val (d :: ds) = d.toNat <<< (8 * ds.length) ||| val ds := by
  have hpow : (256 : Nat) ^ ds.length = 2 ^ (8 * ds.length) := pow_mul 2 8 _ ▸ rfl
  have hlt := val_lt ds
  rw [hpow] at hlt
  rw [← Nat.shiftLeft_add_eq_or_of_lt hlt, Nat.shiftLeft_eq, ← hpow, val_cons]

theorem val_cons_lt_val_cons {x y : Byte} {a b : Digits} (h : a.length = b.length) (hxy : x.toNat < y.toNat) :
    val (x :: a) < val (y :: b) := by
  have ha := val_lt a
  have hle := Nat.mul_le_mul_right (256 ^ a.length) (Nat.succ_le_of_lt hxy)
  rw [Nat.succ_mul] at hle
  rw [val_cons, val_cons, ← h]
  omega

/-- Two arrays of one length compare by their first digits, and by the others when these are equal. -/
theorem val_cons_le_val_cons {x y : Byte} {a b : Digits} (h : a.length = b.length) :
    val (x :: a) ≤ val (y :: b) ↔ x.toNat < y.toNat ∨ x.toNat = y.toNat ∧ val a ≤ val b := by
  rcases Nat.lt_trichotomy x.toNat y.toNat with hlt | heq | hgt
  · exact iff_of_true (val_cons_lt_val_cons h hlt).le (.inl hlt)
  · rw [val_cons, val_cons, h, heq]
    omega
  · exact iff_of_false (val_cons_lt_val_cons h.symm hgt).not_ge (by omega)

/-! ### Comparison -/

theorem compareLe_eq {a b : Digits} (h : a.length = b.length) : compareLe a b = decide (val a ≤ val b) := by
  induction a generalizing b with
  | nil => simp [compareLe]
  | cons x a ih =>
    cases b with
    | nil => simp at h
    | cons y b =>
      have hl : a.length = b.length := by simpa using h
      have hcons := val_cons_le_val_cons (x := x) (y := y) hl
      rw [compareLe, ih hl]
      split
      · next hlt => rw [eq_comm, decide_eq_true_iff, hcons]; exact .inl hlt
      · split
        · next hgt => rw [eq_comm, decide_eq_false_iff_not, hcons]; omega
        · rw [decide_eq_decide, hcons]; omega

/-- Settles O38: the first digits that differ decide both the comparison and the order of the values. -/
theorem compareLeIsValueOrder : Obligations.CompareLeIsValueOrder := fun _ _ => compareLe_eq

/-! ### Whole digits -/

theorem isZero_iff (a : Digits) : isZero a = true ↔ val a = 0 := by
  induction a with
  | nil => simp [isZero]
  | cons d a ih =>
    have hd : d = 0#8 ↔ d.toNat = 0 := BitVec.toNat_inj (y := 0#8).symm
    rw [val_cons, Nat.add_eq_zero_iff, ← ih]
    simp [isZero, hd]

theorem widen_length {a : Digits} {m : Nat} (h : a.length ≤ m) : (widen a m).length = m := by
  rw [widen, List.length_append, zeros_length, Nat.add_sub_of_le h]

theorem val_widen (a : Digits) (m : Nat) : val (widen a m) = val a * 256 ^ (m - a.length) := by
  rw [widen, val_append, val_zeros, zeros_length, Nat.add_zero]

@[simp] theorem byteShiftRight_length (a : Digits) (n : Nat) : (byteShiftRight a n).length = a.length := by
  unfold byteShiftRight
  split
  · exact zeros_length _
  · rw [List.length_append, zeros_length, List.length_take]
    omega

/-- The leading digits of an array are its value without the others. -/
theorem val_take {a : Digits} {n : Nat} (h : n ≤ a.length) : val (a.take (a.length - n)) = val a / 256 ^ n := by
  have hlen : (a.drop (a.length - n)).length = n := by rw [List.length_drop]; omega
  have hlt := val_lt (a.drop (a.length - n))
  have hval : val a = 256 ^ n * val (a.take (a.length - n)) + val (a.drop (a.length - n)) := by
    conv_lhs => rw [← List.take_append_drop (a.length - n) a, val_append, hlen, Nat.mul_comm]
  rw [hlen] at hlt
  rw [hval, Nat.mul_add_div (by positivity), Nat.div_eq_of_lt hlt, Nat.add_zero]

theorem val_byteShiftRight (a : Digits) (n : Nat) : val (byteShiftRight a n) = val a / 256 ^ n := by
  unfold byteShiftRight
  split
  · next hle =>
    have hlt : val a < 256 ^ n := (val_lt a).trans_le (Nat.pow_le_pow_right (by omega) hle)
    rw [val_zeros, Nat.div_eq_of_lt hlt]
  · next hgt =>
    rw [val_append, val_zeros, Nat.zero_mul, Nat.zero_add, val_take (by omega)]

theorem bitMask_toNat (n : Nat) : (bitMask n).toNat = if 8 ≤ n then 255 else 2 ^ n - 1 := by
  unfold bitMask
  split
  · rfl
  · have hpow : 2 ^ n < 2 ^ 8 := Nat.pow_lt_pow_right (by omega) (by omega)
    rw [BitVec.toNat_ofNat, Nat.mod_eq_of_lt (by omega)]

/-- Settles O39, one primitive after the other. -/
theorem arrayPrimitivesInNumbers : Obligations.ArrayPrimitivesInNumbers := fun a n m =>
  ⟨isZero_iff a, rfl, fun h => ⟨widen_length h, val_widen a m⟩, byteShiftRight_length a n, val_byteShiftRight a n,
    bitMask_toNat n⟩

/-! ### Shifting by bits -/

@[simp] theorem shiftDigits_length (k : Nat) (hi : Byte) (a : Digits) : (shiftDigits k hi a).length = a.length := by
  induction a generalizing hi with
  | nil => rfl
  | cons d a ih => simp [shiftDigits, ih]

/-- One digit of `shiftDigits`: the digit with the low bits of its neighbour above it, divided by `2^k`. -/
theorem shiftedDigit_toNat {k : Nat} (hk : k < 8) (hi d : Byte) :
    ((d >>> k) ||| ((hi &&& bitMask k) <<< (8 - k))).toNat = (hi.toNat % 2 ^ k * 256 + d.toNat) / 2 ^ k := by
  have hpos : 0 < 2 ^ k := by positivity
  have h256 : 2 ^ k * 2 ^ (8 - k) = 256 := by rw [← pow_add, show k + (8 - k) = 8 by omega]; rfl
  have hhigh : (hi.toNat % 2 ^ k) <<< (8 - k) < 2 ^ 8 := by
    rw [Nat.shiftLeft_eq, show 2 ^ 8 = 2 ^ k * 2 ^ (8 - k) from h256.symm]
    exact Nat.mul_lt_mul_of_pos_right (Nat.mod_lt _ hpos) (by positivity)
  have hlow : d.toNat >>> k < 2 ^ (8 - k) := by
    rw [Nat.shiftRight_eq_div_pow, Nat.div_lt_iff_lt_mul hpos, Nat.mul_comm, h256]
    exact d.isLt
  have hmask : (hi &&& bitMask k).toNat = hi.toNat % 2 ^ k := by
    rw [BitVec.toNat_and, bitMask_toNat, if_neg (by omega), Nat.and_two_pow_sub_one_eq_mod]
  calc ((d >>> k) ||| ((hi &&& bitMask k) <<< (8 - k))).toNat
      = (hi.toNat % 2 ^ k) <<< (8 - k) ||| d.toNat >>> k := by
        rw [BitVec.toNat_or, BitVec.toNat_ushiftRight, BitVec.toNat_shiftLeft, hmask, Nat.mod_eq_of_lt hhigh, Nat.or_comm]
    _ = 2 ^ (8 - k) * (hi.toNat % 2 ^ k) + d.toNat / 2 ^ k := by
        rw [← Nat.shiftLeft_add_eq_or_of_lt hlow, Nat.shiftLeft_eq, Nat.shiftRight_eq_div_pow, Nat.mul_comm]
    _ = (hi.toNat % 2 ^ k * 256 + d.toNat) / 2 ^ k := by
        rw [← Nat.mul_add_div hpos, ← Nat.mul_assoc, h256, Nat.mul_comm]

/-- The digit loop divides by `2^k` the array with the low bits of `hi` as a digit above it: each digit passes its
remainder on to the next. -/
theorem val_shiftDigits {k : Nat} (hk : k < 8) (hi : Byte) (a : Digits) :
    val (shiftDigits k hi a) = (hi.toNat % 2 ^ k * 256 ^ a.length + val a) / 2 ^ k := by
  induction a generalizing hi with
  | nil => simp [shiftDigits, Nat.div_eq_of_lt (Nat.mod_lt hi.toNat (show 2 ^ k > 0 by positivity))]
  | cons d a ih =>
    have hpos : 0 < 2 ^ k := by positivity
    have hdvd : 2 ^ k ∣ 256 := pow_dvd_pow 2 hk.le
    set t := hi.toNat % 2 ^ k * 256 + d.toNat with ht
    have hrem : d.toNat % 2 ^ k = t % 2 ^ k := by
      rw [ht, Nat.add_mod, Nat.mod_eq_zero_of_dvd (hdvd.mul_left _), Nat.zero_add, Nat.mod_mod]
    have hsplit : t = 2 ^ k * (t / 2 ^ k) + t % 2 ^ k := (Nat.div_add_mod ..).symm
    calc val (shiftDigits k hi (d :: a))
        = t / 2 ^ k * 256 ^ a.length + (t % 2 ^ k * 256 ^ a.length + val a) / 2 ^ k := by
          rw [shiftDigits, val_cons, shiftedDigit_toNat hk, shiftDigits_length, ih, hrem]
      _ = (2 ^ k * (t / 2 ^ k * 256 ^ a.length) + (t % 2 ^ k * 256 ^ a.length + val a)) / 2 ^ k :=
          (Nat.mul_add_div hpos ..).symm
      _ = (t * 256 ^ a.length + val a) / 2 ^ k := by
          rw [← Nat.mul_assoc, ← Nat.add_assoc, ← Nat.add_mul, ← hsplit]
      _ = (hi.toNat % 2 ^ k * 256 ^ (d :: a).length + val (d :: a)) / 2 ^ k := by
          rw [ht, val_cons, List.length_cons, pow_succ']; congr 1; ring

@[simp] theorem bitShiftRight_length (a : Digits) (places : Nat) : (bitShiftRight a places).length = a.length := by
  unfold bitShiftRight
  split <;> simp

theorem val_bitShiftRight (a : Digits) (places : Nat) : val (bitShiftRight a places) = val a / 2 ^ places := by
  have hpow : 2 ^ places = 256 ^ (places / 8) * 2 ^ (places % 8) := by
    rw [show 256 = 2 ^ 8 from rfl, ← pow_mul, ← pow_add, Nat.div_add_mod]
  rw [hpow, ← Nat.div_div_eq_div_mul, ← val_byteShiftRight]
  unfold bitShiftRight
  split
  · next h => rw [h, pow_zero, Nat.div_one]
  · rw [val_shiftDigits (Nat.mod_lt _ (by omega))]
    simp

/-- Settles O40: whole digits first, and the remaining bits by the digit loop. -/
theorem bitShiftRightDividesByPowerOfTwo : Obligations.BitShiftRightDividesByPowerOfTwo := fun a places =>
  ⟨bitShiftRight_length a places, val_bitShiftRight a places⟩

/-! ### Setting a bit -/

theorem setBit_cons_of_lt {q : Nat} (h : q < 8) (d : Byte) (ds : Digits) :
    setBit (d :: ds) q = (d ||| 1#8 <<< (7 - q)) :: ds := by
  rw [setBit, Nat.div_eq_of_lt h, Nat.mod_eq_of_lt h, List.modify_zero_cons]

theorem setBit_cons_add (q : Nat) (d : Byte) (ds : Digits) : setBit (d :: ds) (q + 8) = d :: setBit ds q := by
  rw [setBit, Nat.add_div_right q (by omega), Nat.add_mod_right]
  exact List.modify_succ_cons ..

theorem byteBit_toNat {j : Nat} (h : j < 8) : (1#8 <<< j).toNat = 2 ^ j := by
  have hpow : 2 ^ j < 2 ^ 8 := Nat.pow_lt_pow_right (by omega) h
  rw [BitVec.toNat_shiftLeft, BitVec.toNat_ofNat, Nat.shiftLeft_eq, Nat.one_mod, Nat.one_mul, Nat.mod_eq_of_lt hpow]

/-- `set_bit` is a bitwise or with the weight of its bit. -/
theorem val_setBit {a : Digits} {q : Nat} (h : q < 8 * a.length) :
    val (setBit a q) = val a ||| 2 ^ (8 * a.length - 1 - q) := by
  induction a generalizing q with
  | nil => simp at h
  | cons d ds ih =>
    rw [List.length_cons] at h ⊢
    rcases Nat.lt_or_ge q 8 with hq | hq
    · have hweight : 2 ^ (7 - q) <<< (8 * ds.length) = 2 ^ (8 * (ds.length + 1) - 1 - q) := by
        rw [Nat.shiftLeft_eq, ← pow_add]
        congr 1; omega
      rw [setBit_cons_of_lt hq, val_cons_or, val_cons_or, BitVec.toNat_or, byteBit_toNat (by omega),
        Nat.shiftLeft_or_distrib, hweight, Nat.or_right_comm]
    · obtain ⟨p, rfl⟩ := Nat.exists_eq_add_of_le' hq
      rw [setBit_cons_add, val_cons_or, val_cons_or, setBit_length, ih (by omega), Nat.or_assoc]
      congr 3; omega

/-- The value of a number with one bit set, by what that bit was. -/
theorem or_two_pow (x k : Nat) : x ||| 2 ^ k = if x / 2 ^ k % 2 = 1 then x else x + 2 ^ k := by
  induction k generalizing x with
  | zero =>
    have hdiv : (x ||| 1) / 2 = x / 2 := by rw [Nat.or_div_two]; exact Nat.or_zero _
    have hmod : (x ||| 1) % 2 = 1 := Nat.or_mod_two_eq_one.2 (.inr rfl)
    rw [pow_zero, Nat.div_one]
    split <;> omega
  | succ k ih =>
    have hdiv : (x ||| 2 ^ (k + 1)) / 2 = x / 2 ||| 2 ^ k := by
      rw [Nat.or_div_two, pow_succ, Nat.mul_div_cancel _ (by omega)]
    have hmod : (x ||| 2 ^ (k + 1)) % 2 = x % 2 := by
      simpa [pow_succ] using Nat.or_mod_two_pow (a := x) (b := 2 ^ (k + 1)) (n := 1)
    rw [ih, Nat.div_div_eq_div_mul, ← pow_succ'] at hdiv
    split at hdiv
    · next hset => rw [if_pos hset]; omega
    · next hclear => rw [if_neg hclear]; omega

/-- Settles O41: setting a bit is a bitwise or with its weight. -/
theorem setBitSetsOneWeight : Obligations.SetBitSetsOneWeight := fun a q h =>
  ⟨setBit_length a q, (val_setBit h).trans (or_two_pow ..)⟩

end Sys2Proof.Machine
end

section
/-! The alignment helpers of the division in closed form: each loop halves an array until its value first meets the
loop's exit test (spec/41_alignment.md R140 to R144). -/

namespace Sys2Proof.Machine

/-! ### Halving an array until its value meets a test -/

@[simp] theorem halve_length (x : Digits) : (halve x).length = x.length := bitShiftRight_length x 1

theorem val_halve (x : Digits) : val (halve x) = val x / 2 := val_bitShiftRight x 1

/-- A halving takes one bit off the bound that the fuel of a loop rests on. -/
theorem val_halve_lt {x : Digits} {f : Nat} (h : val x < 2 ^ (f + 1)) : val (halve x) < 2 ^ f := by
  rw [val_halve]
  rw [pow_succ] at h
  omega

theorem val_lt_two_pow_bitLen (x : Digits) : val x < 2 ^ bitLen x := by
  rw [bitLen, pow_mul]
  exact val_lt x

/-- `x'` is `x` halved `h` times, and `h` is the least number of halvings after which the value satisfies `P`. -/
structure HalvesUntil (P : Nat → Prop) (x x' : Digits) (h : Nat) : Prop where
  length_eq : x'.length = x.length
  val_eq : val x' = val x / 2 ^ h
  stops : P (val x / 2 ^ h)
  least : ∀ g, g < h → ¬ P (val x / 2 ^ g)

namespace HalvesUntil

variable {P : Nat → Prop} {x x' : Digits} {h n : Nat}

/-- The exit of a halving loop. -/
theorem refl (hx : P (val x)) : HalvesUntil P x x 0 where
  length_eq := rfl
  val_eq := by simp
  stops := by simpa using hx
  least := by simp

/-- One more turn of a halving loop. -/
theorem of_halve (hx : ¬ P (val x)) (H : HalvesUntil P (halve x) x' h) : HalvesUntil P x x' (h + 1) := by
  have hdiv (g : Nat) : val x / 2 ^ (g + 1) = val (halve x) / 2 ^ g := by
    rw [val_halve, Nat.div_div_eq_div_mul, pow_succ']
  refine ⟨H.length_eq.trans (halve_length x), (hdiv h) ▸ H.val_eq, (hdiv h) ▸ H.stops, fun g hg => ?_⟩
  cases g with
  | zero => simpa using hx
  | succ g => rw [hdiv]; exact H.least g (by omega)

/-- A value that does not satisfy the test is halved at least once. -/
theorem one_le (H : HalvesUntil P x x' h) (hx : ¬ P (val x)) : 1 ≤ h := by
  by_contra hh
  obtain rfl : h = 0 := by omega
  exact hx (by simpa using H.stops)

/-- A value that one halving brings to the test is halved at most once. -/
theorem le_one_of_half (H : HalvesUntil P x x' h) (hx : P (val x / 2)) : h ≤ 1 := by
  by_contra hh
  exact H.least 1 (by omega) (by simpa using hx)

/-- Before its last halving the value did not satisfy the test. -/
theorem not_before_last (H : HalvesUntil P x x' (h + 1)) : ¬ P (val x / 2 ^ h) := H.least h (by omega)

/-- The last halving halves the value after the others. -/
theorem val_succ (H : HalvesUntil P x x' (h + 1)) : val x' = val x / 2 ^ h / 2 := by
  rw [H.val_eq, Nat.div_div_eq_div_mul, pow_succ]

/-- R143 fact 2: before the last halving of a dividend it was not below the divisor `n`, so half of `n` is not above what
is left of it. -/
theorem half_le (H : HalvesUntil (· < n) x x' h) (hh : 1 ≤ h) : n / 2 ≤ val x' := by
  obtain ⟨k, rfl⟩ := Nat.exists_eq_add_of_le' hh
  rw [H.val_succ]
  exact Nat.div_le_div_right (Nat.not_lt.1 H.not_before_last)

/-- The bound was exceeded before the last halving, which loses at most one bit. -/
theorem lt_two_mul_add_one (H : HalvesUntil (· ≤ n) x x' h) (hh : 1 ≤ h) : n < 2 * val x' + 1 := by
  obtain ⟨k, rfl⟩ := Nat.exists_eq_add_of_le' hh
  have hlast := H.not_before_last
  have hval := H.val_succ
  omega

/-- When no set bit was shifted out, the last halving loses none. -/
theorem lt_two_mul_of_dvd (H : HalvesUntil (· ≤ n) x x' h) (hh : 1 ≤ h) (hdvd : 2 ^ h ∣ val x) : n < 2 * val x' := by
  obtain ⟨k, rfl⟩ := Nat.exists_eq_add_of_le' hh
  have heven : 2 ∣ val x / 2 ^ k := Nat.dvd_div_of_mul_dvd (pow_succ 2 k ▸ hdvd)
  have hlast := H.not_before_last
  have hval := H.val_succ
  omega

/-- Halving down to zero takes as many halvings as the value has bits. -/
theorem eq_size (H : HalvesUntil (· ≤ 0) x x' h) : h = Nat.size (val x) := by
  have hzero (g : Nat) : val x / 2 ^ g ≤ 0 ↔ Nat.size (val x) ≤ g := by
    rw [Nat.le_zero, Nat.div_eq_zero_iff_lt (by positivity), Nat.size_le]
  refine le_antisymm (Nat.not_lt.1 fun hlt => ?_) ((hzero h).1 H.stops)
  exact H.least _ hlt ((hzero _).2 le_rfl)

end HalvesUntil

/-! ### The dividend -/

/-- A zero array is not above any array, whatever the lengths. -/
theorem compareLe_of_val_eq_zero {v : Digits} (hv : val v = 0) (x : Digits) : compareLe v x = true := by
  induction v generalizing x with
  | nil => rfl
  | cons d ds ih =>
    cases x with
    | nil => rfl
    | cons y ys =>
      rw [val_cons, Nat.add_eq_zero_iff] at hv
      obtain ⟨hfirst, hrest⟩ := hv
      have hd : d.toNat = 0 := (Nat.mul_eq_zero.1 hfirst).resolve_right (by positivity)
      simp [compareLe, hd, ih hrest]

theorem alignDividendLoop_of_zero_divisor {v : Digits} (hv : val v = 0) (f : Nat) (x : Digits) (c : Int) :
    alignDividendLoop v f x c = none := by
  induction f generalizing x c with
  | zero => rfl
  | succ f ih => rw [alignDividendLoop, if_pos (compareLe_of_val_eq_zero hv x), ih]

/-- With fuel for one test more than the dividend has bits the loop ends. -/
theorem alignDividendLoop_halves {v x : Digits} {f : Nat} (hl : v.length = x.length) (hv : val v ≠ 0)
    (hf : val x < 2 ^ f) (c : Int) :
    ∃ (x' : Digits) (h : Nat), alignDividendLoop v (f + 1) x c = some (x', c - h) ∧
      HalvesUntil (· < val v) x x' h := by
  induction f generalizing x c with
  | zero =>
    have hexit : val x < val v := by rw [pow_zero] at hf; omega
    refine ⟨x, 0, ?_, .refl hexit⟩
    simp [alignDividendLoop, compareLe_eq hl, hexit]
  | succ f ih =>
    rw [alignDividendLoop, compareLe_eq hl]
    by_cases hexit : val x < val v
    · exact ⟨x, 0, by simp [hexit], .refl hexit⟩
    · obtain ⟨x', h, hloop, H⟩ := ih (hl.trans (halve_length x).symm) (val_halve_lt hf) (c - 1)
      refine ⟨x', h + 1, ?_, H.of_halve hexit⟩
      rw [if_pos (decide_eq_true (Nat.not_lt.1 hexit)), hloop]
      congr 2; push_cast; ring

theorem alignDividend_halves {d v : Digits} (hl : d.length = v.length) (hv : val v ≠ 0) :
    ∃ (d' : Digits) (h : Nat), alignDividend d v = some (d', -(h : Int)) ∧ HalvesUntil (· < val v) d d' h := by
  simpa [alignDividend] using alignDividendLoop_halves hl.symm hv (val_lt_two_pow_bitLen d) 0

/-! ### The divisor -/

/-- With fuel for as many halvings as the divisor has bits the loop ends, the zero divisor being its last. -/
theorem alignDivisorLoop_halves {d x : Digits} {f : Nat} (hl : x.length = d.length) (hf : val x < 2 ^ f) (c : Nat) :
    ∃ (x' : Digits) (h : Nat), alignDivisorLoop d f x c = (x', c + h) ∧ HalvesUntil (· ≤ val d) x x' h := by
  induction f generalizing x c with
  | zero =>
    have hexit : val x ≤ val d := by rw [pow_zero] at hf; omega
    exact ⟨x, 0, rfl, .refl hexit⟩
  | succ f ih =>
    rw [alignDivisorLoop, compareLe_eq hl]
    by_cases hexit : val x ≤ val d
    · exact ⟨x, 0, by simp [hexit], .refl hexit⟩
    · obtain ⟨x', h, hloop, H⟩ := ih ((halve_length x).trans hl) (val_halve_lt hf) (c + 1)
      refine ⟨x', h + 1, ?_, H.of_halve hexit⟩
      rw [if_neg (by simpa using hexit), hloop, Nat.add_assoc, Nat.add_comm 1 h]

theorem alignDivisor_halves {d v : Digits} (hl : d.length = v.length) :
    ∃ (v' : Digits) (h : Nat), alignDivisor d v = (v', h) ∧ HalvesUntil (· ≤ val d) v v' h := by
  have hfuel : val v < 2 ^ (bitLen v + 1) :=
    (val_lt_two_pow_bitLen v).trans (Nat.pow_lt_pow_right (by omega) (by omega))
  simpa [alignDivisor] using alignDivisorLoop_halves hl.symm hfuel 0

/-! ### The closed forms -/

/-- Settles O42: a zero divisor keeps the loop going; for another one the loop leaves the dividend halved until it is below. -/
theorem alignDividendHalvesBelowDivisor : Obligations.AlignDividendHalvesBelowDivisor := by
  refine fun d v hl => ⟨fun hv => ⟨?_, alignDividendLoop_of_zero_divisor hv⟩, fun hv => ?_⟩
  · exact alignDividendLoop_of_zero_divisor hv ..
  · obtain ⟨d', h, heq, H⟩ := alignDividend_halves hl hv
    exact ⟨d', h, heq, H.length_eq, H.val_eq, H.stops, fun g hg => Nat.not_lt.1 (H.least g hg)⟩

/-- Settles O43: the divisor is halved until it is not above the remainder, down to zero when that is zero. -/
theorem readjustHalvesDownToRemainder : Obligations.ReadjustHalvesDownToRemainder := by
  refine fun d v hl => ⟨rfl, ?_⟩
  obtain ⟨v', h, heq, H⟩ := alignDivisor_halves hl
  refine ⟨v', h, heq, H.length_eq, H.val_eq, H.stops, fun g hg => Nat.not_le.1 (H.least g hg), fun hzero => ?_⟩
  rw [hzero] at H
  exact H.eq_size

/-! ### Both in sequence -/

theorem align_eq {d v d' v' : Digits} {c1 : Int} {c2 : Nat} (h1 : alignDividend d v = some (d', c1))
    (h2 : alignDivisor d' v = (v', c2)) : align d v = some (d', v', c1 + c2) := by
  simp [align, h1, h2]

/-- Settles O44: the closed form of each helper, the second on what the first left of the dividend. -/
theorem alignBringsMagnitudesTogether : Obligations.AlignBringsMagnitudesTogether := by
  intro d v hl hv
  obtain ⟨d', h1, heq1, H1⟩ := alignDividend_halves hl hv
  obtain ⟨v', h2, heq2, H2⟩ := alignDivisor_halves (H1.length_eq.trans hl)
  have hbelow : val d' < val v := H1.val_eq ▸ H1.stops
  have hle : val v' ≤ val d' := H2.val_eq ▸ H2.stops
  have hpos : 1 ≤ h2 := H2.one_le (Nat.not_le.2 hbelow)
  have hone : 1 ≤ h1 → h2 = 1 := fun hh => le_antisymm (H2.le_one_of_half (H1.half_le hh)) hpos
  refine ⟨d', v', h1, h2, -h1 + h2, heq1, heq2, align_eq heq1 heq2, rfl, H1.val_eq, H2.val_eq, hbelow, hpos,
    fun hh => ⟨hone hh, by rw [hone hh, Nat.cast_one]⟩, fun hzero => ?_, hle, H2.lt_two_mul_add_one hpos,
    H2.lt_two_mul_of_dvd hpos⟩
  constructor <;> omega

end Sys2Proof.Machine
end

section
/-! Addition (spec/42_add.md): what `ADD` and `ADDX` write, and that the sum is commutative and undone by subtraction. -/

namespace Sys2Proof.Machine

/-! ### The sum and its final carry -/

/-- The sum's digits and its final carry together are the exact sum. -/
theorem addDigits_sum {a b : Digits} (h : a.length = b.length) :
    val (addDigits a b).2 + 256 ^ a.length * (addDigits a b).1 = val a + val b := by
  obtain ⟨hdigits, hcarry⟩ := addDigits_val h
  rw [hdigits, hcarry, Nat.mod_add_div]

theorem addDigits_carry_le_one {a b : Digits} (h : a.length = b.length) : (addDigits a b).1 ≤ 1 := by
  have ha := val_lt a
  have hb := val_lt b
  rw [← h] at hb
  rw [(addDigits_val h).2, ← Nat.lt_succ_iff, Nat.div_lt_iff_lt_mul (by positivity)]
  omega

theorem addDigits_comm {a b : Digits} (h : a.length = b.length) : addDigits a b = addDigits b a := by
  rw [addDigits_eq h, addDigits_eq h.symm, h, add_comm]

theorem arr_mod (v n : Nat) : arr (v % 256 ^ n) n = arr v n :=
  eq_arr (arrIn_length ..) (by rw [val_arr, Nat.mod_mod])

theorem arr_succ (v n : Nat) : arr v (n + 1) = BitVec.ofNat 8 (v / 256 ^ n % 256) :: arr v n := rfl

/-- The final carry put above the sum's digits: the exact sum in one digit more. -/
theorem carry_cons_addDigits {a b : Digits} (h : a.length = b.length) :
    BitVec.ofNat 8 (addDigits a b).1 :: (addDigits a b).2 = arr (val a + val b) (a.length + 1) := by
  have hle := addDigits_carry_le_one h
  rw [addDigits_eq h] at hle ⊢
  rw [arr_succ, Nat.mod_eq_of_lt (by omega)]

/-! ### The next state of an addition -/

theorem packStatus_carryFlag {c : Nat} (h : c ≤ 1) : packStatus .ok (carryFlag c) false = BitVec.ofNat 32 (16 * c) := by
  interval_cases c <;> rfl

theorem complete_carryFlag (s : State) (base : Nat) (r : Digits) {c : Nat} (h : c ≤ 1) :
    complete s base r (carryFlag c) false 0#32 = Spec.wrote s base r (16 * c) := by
  rw [complete, packStatus_carryFlag h, Spec.wrote]

/-- The state `exec_bad` answers, in the words of the statements. -/
theorem exec_badOperand {i : Instr} {s : State} (h : operandsOk i s = false) : exec i s = .next (Spec.badOperand s) :=
  exec_bad h

/-- Settles O14: the digits are those of the sum, which depend on it modulo `256^n` only, and the carry is 0 or 1. -/
theorem addWritesSumModulo : Obligations.AddWritesSumModulo := by
  refine fun s => ⟨fun hok => ?_, exec_badOperand⟩
  have hl : (operandA s).length = (operandB .add s).length := by simp [bufLenB]
  rw [execAdd_ok hok, complete_carryFlag _ _ _ (addDigits_carry_le_one hl), addDigits_eq hl, operandA_length, arr_mod]
  rfl

/-- Settles O15: `b` padded to the length of `a` keeps its value, and the carry is the digit above the sum's. -/
theorem addxWritesExactSum : Obligations.AddxWritesExactSum := by
  refine fun s => ⟨fun hok => ?_, exec_badOperand⟩
  have hle : (operandB .addx s).length ≤ s.aLen.toNat := by
    simpa [bufLenB] using operandsOk_order hok (.inl rfl)
  have hl : (operandA s).length = (padTo s.aLen.toNat (operandB .addx s)).length := by
    rw [padTo_length hle, operandA_length]
  rw [execAddx_ok hok, complete_carryFlag _ _ _ (addDigits_carry_le_one hl), carry_cons_addDigits hl,
    (addDigits_val hl).2, val_padTo, operandA_length]
  rfl

/-! ### Operands exchanged -/

/-- The state with the bases of the two operands exchanged. -/
def exchangeBases (s : State) : State := { s with aBase := s.bBase, bBase := s.aBase }

theorem operandA_exchangeBases (s : State) : operandA (exchangeBases s) = operandB .add s :=
  memRead_congr fun _ _ _ => rfl

theorem operandB_exchangeBases (s : State) : operandB .add (exchangeBases s) = operandA s :=
  memRead_congr fun _ _ _ => rfl

/-- The items of R238 that apply to `ADD` treat its two operands alike. -/
theorem operandsOk_exchangeBases (s : State) : operandsOk .add (exchangeBases s) = operandsOk .add s := by
  have hranges : validRanges .add (exchangeBases s) = validRanges .add s := congrArg (· && _) (Bool.and_comm ..)
  have hdisjoint : validDisjoint .add (exchangeBases s) = validDisjoint .add s := Bool.and_comm ..
  rw [operandsOk, hranges, hdisjoint]
  rfl

theorem commandResult_exchangeBases (s : State) : commandResult .add (exchangeBases s) = commandResult .add s := by
  have hl : (operandA s).length = (operandB .add s).length := by simp [bufLenB]
  simp only [commandResult, resultOf, operandsOk_exchangeBases, operandA_exchangeBases, operandB_exchangeBases,
    addDigits_comm hl]

/-- Settles O34: the result is the same, and the write of a result keeps the two bases. -/
theorem addIsCommutative : Obligations.AddIsCommutative := by
  intro s t h
  change exec .add (exchangeBases s) = _
  rw [exec_eq_writeTo] at h ⊢
  cases h
  rw [commandResult_exchangeBases]
  rfl

/-! ### Subtraction of an addend -/

/-- Settles O35: without a carry the sum's digits are worth `a + b`, and with one less than `b`. -/
theorem subtractionUndoesAddition : Obligations.SubtractionUndoesAddition := by
  intro a b h
  have hsum := addDigits_sum h
  have hlen := addDigits_length h
  have ha := val_lt a
  rw [subArrays_eq (by omega), hlen]
  refine ⟨fun hc => ?noCarry, fun hc => ?carry⟩
  case noCarry =>
    have hval : val (addDigits a b).2 = val a + val b := by simpa [hc] using hsum
    rw [hval, if_pos (Nat.le_add_left ..), Nat.add_sub_cancel, ← eq_arr rfl (Nat.mod_eq_of_lt ha).symm]
  case carry =>
    have hone : (addDigits a b).1 = 1 := le_antisymm (addDigits_carry_le_one h) (Nat.one_le_iff_ne_zero.2 hc)
    rw [hone] at hsum
    exact if_neg (by omega)

end Sys2Proof.Machine
end

section
/-! Subtraction (spec/43_sub.md): what `SUB` and `SUBX` write under their contract and when it is broken, that `SUBX`
undoes `ADDX`, and that `SUBX` with operands of one length is `SUB`. -/

namespace Sys2Proof.Machine

/-! ### The next state of a subtraction -/

/-- Both forms complete with `sub_arrays` of their operands (R162). -/
theorem exec_subtraction {i : Instr} (hi : i = .sub ∨ i = .subx) {s : State} (hok : operandsOk i s = true) :
    exec i s = .next (completeSub s (subArrays (operandA s) (operandB i s))) := by
  rcases hi with rfl | rfl
  · exact execSub_ok hok
  · exact execSubx_ok hok

/-- What `sub_arrays` requires: the subtrahend is no longer than the minuend. -/
theorem operandB_length_le {i : Instr} (hi : i = .sub ∨ i = .subx) {s : State} (hok : operandsOk i s = true) :
    (operandB i s).length ≤ (operandA s).length := by
  rw [operandB_length, operandA_length]
  rcases hi with rfl | rfl
  · exact le_refl _
  · exact operandsOk_order hok (.inr rfl)

theorem exec_subtraction_of_le {i : Instr} (hi : i = .sub ∨ i = .subx) {s : State} (hok : operandsOk i s = true)
    (hle : val (operandB i s) ≤ val (operandA s)) :
    exec i s = .next (Spec.wrote s s.rBase.toNat (arr (val (operandA s) - val (operandB i s)) s.aLen.toNat) 0) := by
  rw [exec_subtraction hi hok, subArrays_eq (operandB_length_le hi hok), if_pos hle, operandA_length]
  rfl

theorem exec_subtraction_of_lt {i : Instr} (hi : i = .sub ∨ i = .subx) {s : State} (hok : operandsOk i s = true)
    (hlt : val (operandA s) < val (operandB i s)) :
    exec i s = .next (Spec.wroteDraw s s.rBase.toNat s.aLen.toNat 0x20) := by
  rw [exec_subtraction hi hok, subArrays_eq (operandB_length_le hi hok), if_neg (Nat.not_le.2 hlt)]
  rfl

/-- Settles O16: under the contract `sub_arrays` gives the difference of the two operands of `A_LEN` digits. -/
theorem subWritesDifference : Obligations.SubWritesDifference :=
  fun _ => ⟨exec_subtraction_of_le (.inl rfl), exec_badOperand⟩

/-- Settles O17: under the contract `sub_arrays` gives the difference, the subtrahend having `B_LEN` digits. -/
theorem subxWritesDifference : Obligations.SubxWritesDifference :=
  fun _ => ⟨exec_subtraction_of_le (.inr rfl), exec_badOperand⟩

/-- Settles O18: when the contract is broken `sub_arrays` gives no digits, and the completion writes a draw. -/
theorem brokenSubtractionDrawsOnlyItsResult : Obligations.BrokenSubtractionDrawsOnlyItsResult :=
  fun _ => ⟨exec_subtraction_of_lt (.inl rfl), exec_subtraction_of_lt (.inr rfl)⟩

/-! ### Subtraction of an addend from the exact sum -/

/-- A zero digit above an array keeps its value. -/
theorem zero_cons_eq_arr (a : Digits) : 0#8 :: a = arr (val a) (a.length + 1) := by
  have hlt : val a < 256 ^ (a.length + 1) := (val_lt a).trans (Nat.pow_lt_pow_succ (by norm_num))
  exact eq_arr rfl (by rw [Nat.mod_eq_of_lt hlt, val_cons]; simp)

/-- The sum of two arrays of at most `n` digits fits in `n + 1` digits. -/
theorem val_add_val_lt {a b : Digits} (h : b.length ≤ a.length) : val a + val b < 256 ^ (a.length + 1) := by
  have ha := val_lt a
  have hb : val b < 256 ^ a.length := (val_lt b).trans_le (Nat.pow_le_pow_right (by norm_num) h)
  rw [pow_succ]
  omega

/-- Settles O36: `ADDX` gives the exact sum, which is not below `b`, and taking `b` from it leaves the value of `a`. -/
theorem subxUndoesAddx : Obligations.SubxUndoesAddx := by
  intro a b h
  have hsum : val (arr (val a + val b) (a.length + 1)) = val a + val b := by
    rw [val_arr, Nat.mod_eq_of_lt (val_add_val_lt h)]
  have hlen : b.length ≤ (arr (val a + val b) (a.length + 1)).length := by
    rw [arrIn_length]
    exact Nat.le_succ_of_le h
  rw [carry_cons_addDigits (padTo_length h).symm, val_padTo, subArrays_eq hlen, hsum, if_pos (Nat.le_add_left ..),
    Nat.add_sub_cancel, arrIn_length, zero_cons_eq_arr]

/-! ### Operands of one length -/

/-- The buffers of the two forms are then the same. -/
theorem bufLenB_subx_eq_sub {s : State} (h : s.bLen = s.aLen) : bufLenB .subx s = bufLenB .sub s :=
  congrArg BitVec.toNat h

/-- The items of R238 on `B_LEN`, which `SUB` does not test, then follow from the one on `A_LEN`. -/
theorem operandsOk_subx_eq_sub {s : State} (h : s.bLen = s.aLen) : operandsOk .subx s = operandsOk .sub s := by
  have hbLen : validBLen s = validALen s := by rw [validBLen, validALen, h]
  have horder : validOrder s = true := (validOrder_iff s).2 (by rw [h])
  have hranges : validRanges .subx s = validRanges .sub s := by
    rw [validRanges, validRanges, bufLenB_subx_eq_sub h]; rfl
  have hdisjoint : validDisjoint .subx s = validDisjoint .sub s := by
    rw [validDisjoint, validDisjoint, bufLenB_subx_eq_sub h]; rfl
  simp only [operandsOk, hbLen, horder, hranges, hdisjoint, Bool.and_true, Bool.and_assoc, Bool.and_self_left]

theorem commandResult_subx_eq_sub {s : State} (h : s.bLen = s.aLen) : commandResult .subx s = commandResult .sub s := by
  have hb : operandB .subx s = operandB .sub s := congrArg (memRead s _) (bufLenB_subx_eq_sub h)
  rw [commandResult, commandResult, operandsOk_subx_eq_sub h, hb]
  rfl

/-- Settles O37: the two forms have the same result and write it to the same buffer. -/
theorem subxWithEqualLengthsIsSub : Obligations.SubxWithEqualLengthsIsSub := by
  intro s h
  rw [exec_eq_writeTo, exec_eq_writeTo, commandResult_subx_eq_sub h]
  rfl

end Sys2Proof.Machine
end

section
/-! Multiplication (spec/44_mul.md): what `MUL` writes. -/

namespace Sys2Proof.Machine

/-- R170: with valid operands the exact product completes with `ERR = OK`; no other status is possible. -/
theorem exec_mul_of_ok {s : State} (hok : operandsOk .mul s = true) :
    exec .mul s = .next (Spec.wrote s s.rBase.toNat
      (arr (Spec.valA s * Spec.valB s s.bLen.toNat) (s.aLen.toNat + s.bLen.toNat + 1)) 0) := by
  have hb : (operandB .mul s).length = s.bLen.toNat := operandB_length ..
  rw [execMul_ok hok, mulDigits_eq, operandA_length, hb]
  rfl

/-- Settles O19: the row-by-row sum is the exact product, and it never needs more than the digits of the result. -/
theorem mulWritesExactProduct : Obligations.MulWritesExactProduct :=
  fun _ => ⟨exec_mul_of_ok, exec_badOperand⟩

end Sys2Proof.Machine
end

section
/-! Division (spec/45_div.md): one iteration of its loop, the loop's invariant, the algorithm in closed form, and what
`DIV` writes. -/

namespace Sys2Proof.Machine

/-! ### One iteration of the loop -/

/-- Steps (b) and (c) of R186 where the subtraction keeps its contract: the difference, and the divisor halved until it is
not above it. -/
theorem subArrays_then_readjust {d v : Digits} (hl : d.length = v.length) (hle : val v ≤ val d) :
    ∃ (d2 v' : Digits) (h : Nat), subArrays d v = some d2 ∧ d2.length = v.length ∧ val d2 = val d - val v ∧
      readjust d2 v = (v', h) ∧ HalvesUntil (· ≤ val d2) v v' h := by
  have hlen : (arr (val d - val v) d.length).length = v.length := (arrIn_length ..).trans hl
  have hval : val (arr (val d - val v) d.length) = val d - val v := by
    rw [val_arr, Nat.mod_eq_of_lt (lt_of_le_of_lt (Nat.sub_le ..) (val_lt d))]
  obtain ⟨v', h, heq, H⟩ := alignDivisor_halves hlen
  exact ⟨_, v', h, by rw [subArrays_eq hl.ge, if_pos hle], hlen, hval, heq, H⟩

/-- Settles O45: the difference is below the divisor, so the divisor is halved at least once. -/
theorem divIterationKeepsContract : Obligations.DivIterationKeepsContract := by
  intro d v hl hle hlt
  obtain ⟨d2, v', h, hsub, -, hval, heq, H⟩ := subArrays_then_readjust hl hle
  have hbelow : val d2 < val v := by omega
  have hpos : 1 ≤ h := H.one_le (Nat.not_le.2 hbelow)
  exact ⟨d2, v', h, hsub, hval, heq, hpos, H.val_eq ▸ H.stops, H.lt_two_mul_of_dvd hpos⟩

theorem divLoop_of_bitLen_le {r : Digits} {p : Nat} (hp : bitLen r ≤ p) (f : Nat) (d v : Digits) :
    divLoop f r d v p = some r := by
  cases f <;> rw [divLoop, if_neg (Nat.not_lt.2 hp)]

theorem divLoop_succ {r d v d2 v' : Digits} {p h : Nat} (hp : p < bitLen r) (hsub : subArrays d v = some d2)
    (hadj : readjust d2 v = (v', h)) (f : Nat) : divLoop (f + 1) r d v p = divLoop f (setBit r p) d2 v' (p + h) := by
  rw [divLoop, if_pos hp, hsub]
  simp only [hadj]

/-! ### The invariant of the loop -/

/-- The invariant at the top of an iteration (R188), with the weight `2^w` of the bit that the pointer `p` addresses. `m` is
the divisor at the weight of the result's last bit, so that `val r + val d / m` is the quotient throughout. -/
inductive DivLoopInv (m : Nat) (r d v : Digits) (p : Nat) : Prop where
  /-- The bit addressed is the quotient's next: the divisor fits once into the remainder, and no lower bit is set yet. -/
  | running (w : Nat) (pointer : p + 1 + w = bitLen r) (length_eq : d.length = v.length) (divisor : val v = m * 2 ^ w)
      (le : val v ≤ val d) (lt : val d < 2 * val v) (clear : 2 ^ (w + 1) ∣ val r)
  /-- The pointer has passed the last bit, and what is left is worth no further one. -/
  | ended (pointer : bitLen r ≤ p) (small : val d < m)

/-- A divisor readjusted to a remainder below it gives the invariant: before, `val v = m * 2^w`, with the bits below `2^w`
clear in the result; the pointer `p` is already advanced by the `h` halvings. -/
theorem DivLoopInv.of_readjust {m w h p : Nat} {r d v v' : Digits} (hl : d.length = v.length) (hv : val v = m * 2 ^ w)
    (hlt : val d < val v) (hclear : 2 ^ w ∣ val r) (H : HalvesUntil (· ≤ val d) v v' h)
    (hp : p + 1 + w = bitLen r + h) : DivLoopInv m r d v' p := by
  have hpos : 1 ≤ h := H.one_le (Nat.not_le.2 hlt)
  rcases Nat.lt_or_ge w h with hw | hw
  · have hsmall : ¬ val v / 2 ^ w ≤ val d := H.least w hw
    rw [hv, Nat.mul_div_cancel _ (by positivity)] at hsmall
    exact .ended (by omega) (Nat.not_le.1 hsmall)
  · have hdvd : 2 ^ h ∣ val v := hv ▸ (pow_dvd_pow 2 hw).mul_left m
    have hval : val v' = m * 2 ^ (w - h) := by
      rw [H.val_eq, hv, Nat.mul_div_assoc _ (pow_dvd_pow 2 hw), Nat.pow_div hw (by omega)]
    exact .running (w - h) (by omega) (hl.trans H.length_eq.symm) hval (H.val_eq ▸ H.stops)
      (H.lt_two_mul_of_dvd hpos hdvd) ((pow_dvd_pow 2 (by omega)).trans hclear)

/-- Setting a bit below which, and at which, nothing is set adds its weight. -/
theorem val_setBit_of_dvd {r : Digits} {p w : Nat} (hp : p + 1 + w = bitLen r) (hclear : 2 ^ (w + 1) ∣ val r) :
    val (setBit r p) = val r + 2 ^ w := by
  have hw : 8 * r.length - 1 - p = w := by rw [bitLen] at hp; omega
  have heven : 2 ∣ val r / 2 ^ w := Nat.dvd_div_of_mul_dvd (pow_succ 2 w ▸ hclear)
  rw [val_setBit (by rw [bitLen] at hp; omega), hw, or_two_pow, if_neg (by omega)]

@[simp] theorem bitLen_setBit (r : Digits) (p : Nat) : bitLen (setBit r p) = bitLen r := by
  rw [bitLen, setBit_length, bitLen]

/-- Taking `m * 2^w` from the remainder takes `2^w` from its quotient. -/
theorem two_pow_add_sub_div {m w n : Nat} (hm : 0 < m) (hle : m * 2 ^ w ≤ n) : 2 ^ w + (n - m * 2 ^ w) / m = n / m := by
  rw [Nat.sub_mul_div, Nat.add_sub_of_le ((Nat.le_div_iff_mul_le hm).2 (Nat.mul_comm m _ ▸ hle))]

/-- From its invariant the loop ends within its fuel, with the quotient of what is left added to the result. -/
theorem divLoop_val {m f p : Nat} {r d v : Digits} (H : DivLoopInv m r d v p) (hf : bitLen r ≤ p + f) :
    ∃ q, divLoop f r d v p = some q ∧ val q = val r + val d / m := by
  induction f generalizing r d v p with
  | zero =>
    cases H with
    | running => omega
    | ended _ hsmall => exact ⟨r, divLoop_of_bitLen_le hf .., by rw [Nat.div_eq_of_lt hsmall, Nat.add_zero]⟩
  | succ f ih =>
    cases H with
    | ended hp hsmall => exact ⟨r, divLoop_of_bitLen_le hp .., by rw [Nat.div_eq_of_lt hsmall, Nat.add_zero]⟩
    | running w hp hl hv hle hlt hclear =>
      obtain ⟨d2, v', h, hsub, hlen, hval, hadj, H⟩ := subArrays_then_readjust hl hle
      have hset := val_setBit_of_dvd hp hclear
      have hbelow : val d2 < val v := by omega
      have hclear' : 2 ^ w ∣ val (setBit r p) :=
        hset ▸ Nat.dvd_add ((pow_dvd_pow 2 (Nat.le_succ w)).trans hclear) dvd_rfl
      have hnext : DivLoopInv m (setBit r p) d2 v' (p + h) :=
        .of_readjust hlen hv hbelow hclear' H (by rw [bitLen_setBit]; omega)
      have hpos : 1 ≤ h := H.one_le (Nat.not_le.2 hbelow)
      obtain ⟨q, hq, hqval⟩ := ih hnext (by rw [bitLen_setBit]; omega)
      have hm : 0 < m := Nat.pos_of_mul_pos_right (b := 2 ^ w) (by omega)
      refine ⟨q, by rw [divLoop_succ (by omega) hsub hadj, hq], ?_⟩
      rw [hqval, hset, hval, hv, Nat.add_assoc, two_pow_add_sub_div hm (hv ▸ hle)]

/-! ### The start of the loop -/

/-- R143: both helpers' closed forms in sequence. -/
theorem align_halves {d v : Digits} (hl : d.length = v.length) (hv : val v ≠ 0) :
    ∃ (d' v' : Digits) (h1 h2 : Nat), align d v = some (d', v', -(h1 : Int) + h2) ∧
      HalvesUntil (· < val v) d d' h1 ∧ HalvesUntil (· ≤ val d') v v' h2 := by
  obtain ⟨d', h1, heq1, H1⟩ := alignDividend_halves hl hv
  obtain ⟨v', h2, heq2, H2⟩ := alignDivisor_halves (H1.length_eq.trans hl)
  exact ⟨d', v', h1, h2, align_eq heq1 heq2, H1, H2⟩

/-- A value is halved more than `g` times to come below `n` when `n * 2^g` is not above it. -/
theorem HalvesUntil.lt_iff {n h : Nat} {x x' : Digits} (H : HalvesUntil (· < n) x x' h) (g : Nat) :
    g < h ↔ n * 2 ^ g ≤ val x := by
  have hstep (k : Nat) : val x / 2 ^ k < n ↔ val x < n * 2 ^ k := Nat.div_lt_iff_lt_mul (by positivity)
  constructor
  · intro hg
    exact Nat.not_lt.1 fun hlt => H.least g hg ((hstep g).2 hlt)
  · intro hle
    by_contra hg
    have hpow : n * 2 ^ h ≤ n * 2 ^ g := Nat.mul_le_mul_left n (Nat.pow_le_pow_right (by omega) (Nat.not_lt.1 hg))
    have hlt := (hstep h).1 H.stops
    omega

/-- R185: the aligned pointer is negative when the dividend was halved more often than there are integer bits. -/
theorem pointer_neg_iff {d v d' v' : Digits} {h1 h2 : Nat} (H1 : HalvesUntil (· < val v) d d' h1)
    (H2 : HalvesUntil (· ≤ val d') v v' h2) (k : Nat) : 8 * (k : Int) - 1 + (-(h1 : Int) + h2) < 0 ↔ 8 * k < h1 := by
  have hbelow : val d' < val v := H1.val_eq ▸ H1.stops
  have hpos : 1 ≤ h2 := H2.one_le (Nat.not_le.2 hbelow)
  have hone : 1 ≤ h1 → h2 ≤ 1 := fun hh => H2.le_one_of_half (H1.half_le hh)
  omega

/-! ### The algorithm in closed form -/

theorem divDigits_of_zero_divisor {b : Digits} (hb : val b = 0) (a : Digits) (k : Nat) : divDigits a b k = .byZero := by
  rw [divDigits, if_pos ((isZero_iff b).2 hb)]

theorem divDigits_of_zero_dividend {a b : Digits} (hb : val b ≠ 0) (ha : val a = 0) (k : Nat) :
    divDigits a b k = .quotient (zeros a.length) := by
  rw [divDigits, if_neg (mt (isZero_iff b).1 hb), if_pos ((isZero_iff a).2 ha), clear]

section
variable {a b d v : Digits} {k : Nat} {c : Int} (hb : val b ≠ 0) (ha : val a ≠ 0)
  (halign : align (widen a (2 * a.length)) (widen b (2 * b.length)) = some (d, v, c))
include hb ha halign

theorem divDigits_of_pointer_neg (hp : 8 * (k : Int) - 1 + c < 0) : divDigits a b k = .overflow := by
  rw [divDigits, if_neg (mt (isZero_iff b).1 hb), if_neg (mt (isZero_iff a).1 ha), halign]
  exact if_pos hp

theorem divDigits_of_divLoop (hp : ¬ 8 * (k : Int) - 1 + c < 0) {q : Digits}
    (hq : divLoop (bitLen a) (clear a) d v (8 * (k : Int) - 1 + c).toNat = some q) : divDigits a b k = .quotient q := by
  rw [divDigits, if_neg (mt (isZero_iff b).1 hb), if_neg (mt (isZero_iff a).1 ha), halign]
  simp only [if_neg hp, hq]

end

/-- R184: widened to the double length, the array is the high-order half. -/
theorem val_widen_double (a : Digits) : val (widen a (2 * a.length)) = val a * 256 ^ a.length := by
  rw [val_widen, two_mul, Nat.add_sub_cancel]

theorem widen_double_length (a : Digits) : (widen a (2 * a.length)).length = 2 * a.length :=
  widen_length (Nat.le_mul_of_pos_left _ two_pos)

theorem pow_256_eq (n : Nat) : 256 ^ n = 2 ^ (8 * n) := pow_mul 2 8 n ▸ rfl

/-- R188 item 4 at the start: the widened divisor, by its value `M * 2^(8*k - h)` at the weight of the result's last bit. -/
theorem widened_divisor_eq {n k h : Nat} (hk : k ≤ n) (M : Nat) :
    M * 256 ^ n = M * 2 ^ (8 * k - h) * 2 ^ (8 * n - (8 * k - h)) := by
  rw [Nat.mul_assoc, ← pow_add, pow_256_eq, Nat.add_sub_of_le (by omega)]

/-- R189: the quotient of what the alignment left is the truncated fixed-point quotient. -/
theorem aligned_quotient_eq {n k h : Nat} (hk : k ≤ n) (hh : h ≤ 8 * k) (N M : Nat) :
    N * 256 ^ n / 2 ^ h / (M * 2 ^ (8 * k - h)) = N * 256 ^ (n - k) / M := by
  have hden : 2 ^ h * (M * 2 ^ (8 * k - h)) = M * 256 ^ k := by
    rw [Nat.mul_left_comm, ← pow_add, Nat.add_sub_of_le hh, pow_256_eq]
  have hnum : N * 256 ^ n = N * 256 ^ (n - k) * 256 ^ k := by rw [Nat.mul_assoc, ← pow_add, Nat.sub_add_cancel hk]
  rw [Nat.div_div_eq_div_mul, hden, hnum, Nat.mul_div_mul_right _ _ (by positivity)]

section
variable {a b d v : Digits} {k h1 h2 : Nat} (hl : a.length = b.length)
  (H1 : HalvesUntil (· < val (widen b (2 * b.length))) (widen a (2 * a.length)) d h1)
include hl H1

/-- R232: the dividend is halved more often than there are integer bits when the quotient has more integer digits than `k`. -/
theorem integer_bits_lt_halvings_iff (k : Nat) : 8 * k < h1 ↔ 256 ^ k * val b ≤ val a := by
  rw [H1.lt_iff, val_widen_double, val_widen_double, ← hl, ← pow_256_eq, Nat.mul_right_comm,
    Nat.mul_le_mul_right_iff (by positivity), Nat.mul_comm]

/-- Aligned without an overflow, the loop gives the truncated quotient. -/
theorem divLoop_of_aligned (H2 : HalvesUntil (· ≤ val d) (widen b (2 * b.length)) v h2) (hk : k ≤ a.length)
    (hh : h1 ≤ 8 * k) :
    ∃ q, divLoop (bitLen a) (clear a) d v (8 * (k : Int) - 1 + (-(h1 : Int) + h2)).toNat = some q ∧
      val q = val a * 256 ^ (a.length - k) / val b := by
  have hbits : bitLen (clear a) = 8 * a.length := by rw [bitLen, clear_length]
  have hclear : val (clear a) = 0 := val_zeros a.length
  have hlen : d.length = (widen b (2 * b.length)).length := by
    rw [H1.length_eq, widen_double_length, widen_double_length, hl]
  have hbelow : val d < val (widen b (2 * b.length)) := H1.val_eq ▸ H1.stops
  have hpos : 1 ≤ h2 := H2.one_le (Nat.not_le.2 hbelow)
  have hdivisor := (val_widen_double b).trans (hl ▸ widened_divisor_eq (h := h1) hk (val b))
  have hinv : DivLoopInv (val b * 2 ^ (8 * k - h1)) (clear a) d v (8 * (k : Int) - 1 + (-(h1 : Int) + h2)).toNat :=
    .of_readjust hlen hdivisor hbelow (hclear ▸ dvd_zero _) H2 (by omega)
  obtain ⟨q, hq, hval⟩ := divLoop_val (f := bitLen a) hinv (by rw [hbits, bitLen]; omega)
  refine ⟨q, hq, ?_⟩
  rw [hval, hclear, H1.val_eq, val_widen_double, aligned_quotient_eq hk hh, Nat.zero_add]

end

theorem arr_val (q : Digits) : arr (val q) q.length = q :=
  (eq_arr rfl (Nat.mod_eq_of_lt (val_lt q)).symm).symm

/-- R189: with a non-zero divisor and dividend the algorithm ends with an overflow or with the truncated quotient. -/
theorem divDigits_eq {a b : Digits} {k : Nat} (hl : a.length = b.length) (hk : k ≤ a.length) (hb : val b ≠ 0)
    (ha : val a ≠ 0) :
    divDigits a b k =
      if 256 ^ k * val b ≤ val a then .overflow
      else .quotient (arr (val a * 256 ^ (a.length - k) / val b) a.length) := by
  have hlen : (widen a (2 * a.length)).length = (widen b (2 * b.length)).length := by
    rw [widen_double_length, widen_double_length, hl]
  have hb' : val (widen b (2 * b.length)) ≠ 0 := by
    rw [val_widen_double]
    exact Nat.mul_ne_zero hb (by positivity)
  obtain ⟨d, v, h1, h2, halign, H1, H2⟩ := align_halves hlen hb'
  have hneg := pointer_neg_iff H1 H2 k
  split
  · next hover =>
    rw [← integer_bits_lt_halvings_iff hl H1] at hover
    exact divDigits_of_pointer_neg hb ha halign (hneg.2 hover)
  · next hfits =>
    rw [← integer_bits_lt_halvings_iff hl H1] at hfits
    obtain ⟨q, hq, hval⟩ := divLoop_of_aligned hl H1 H2 hk (Nat.not_lt.1 hfits)
    have hdiv := divDigits_of_divLoop hb ha halign (mt hneg.1 hfits) hq
    rw [hdiv, ← hval, ← divDigits_length hdiv, arr_val]

/-- The quotient does not fit in `n` digits when the true quotient has more than `k` integer digits. -/
theorem pow_le_quotient_iff {n k M : Nat} (hk : k ≤ n) (hM : M ≠ 0) (N : Nat) :
    256 ^ n ≤ N * 256 ^ (n - k) / M ↔ 256 ^ k * M ≤ N := by
  have hpow : 256 ^ n * M = 256 ^ k * M * 256 ^ (n - k) := by
    rw [Nat.mul_right_comm, ← pow_add, Nat.add_sub_of_le hk]
  rw [Nat.le_div_iff_mul_le (Nat.pos_of_ne_zero hM), hpow, Nat.mul_le_mul_right_iff (by positivity)]

/-! ### The next state of a division -/

theorem val_memRead_eq_zero {s : State} {a n : Nat} (h : ∀ k, k < n → dmByte s (a + k) = 0#8) : val (memRead s a n) = 0 := by
  have hzeros : memRead s a n = zeros n :=
    List.eq_replicate_iff.2 ⟨memRead_length .., fun d hd => by
      obtain ⟨i, hi, rfl⟩ := List.getElem_of_mem hd
      rw [memRead_getElem, h i (memRead_length s a n ▸ hi)]⟩
  rw [hzeros, val_zeros]

/-- Settles O20: the divisor is tested before anything else, and the completion writes a draw. -/
theorem divByZeroComesFirst : Obligations.DivByZeroComesFirst := by
  intro s hok hzero
  have hb : val (operandB .div s) = 0 := val_memRead_eq_zero hzero
  rw [execDiv_ok hok, divDigits_of_zero_divisor hb]
  rfl

theorem operandsOk_div_intDigits {s : State} (hok : operandsOk .div s = true) : s.intDigits.toNat ≤ s.aLen.toNat := by
  obtain ⟨-, ⟨hint, -⟩, -⟩ := (operandsOk_iff .div s).1 hok
  exact (validIntDigits_iff s).1 hint

/-- R189 on the operands of `DIV`, in the words of the statements. -/
theorem divDigits_operands {s : State} (hok : operandsOk .div s = true) (hb : Spec.valB s s.aLen.toNat ≠ 0)
    (ha : Spec.valA s ≠ 0) :
    divDigits (operandA s) (operandB .div s) s.intDigits.toNat =
      if 256 ^ s.aLen.toNat ≤ Spec.quotient s then .overflow
      else .quotient (arr (Spec.quotient s) s.aLen.toNat) := by
  have hk := operandsOk_div_intDigits hok
  have hlen : (operandA s).length = (operandB .div s).length := by rw [operandA_length, operandB_length]; rfl
  rw [divDigits_eq hlen (by rwa [operandA_length]) hb ha, operandA_length]
  exact if_congr (pow_le_quotient_iff hk hb _).symm rfl rfl

/-- Settles O21: a zero dividend ends the algorithm early, and otherwise its closed form is the quotient's. -/
theorem divWritesTruncatedQuotient : Obligations.DivWritesTruncatedQuotient := by
  intro s hok hb
  have hexec := execDiv_ok hok
  refine ⟨fun ha => ?zeroDividend, fun ha hover => ?overflow, fun ha hfits => ?quotient⟩
  case zeroDividend =>
    have hdiv : divDigits (operandA s) (operandB .div s) _ = _ := divDigits_of_zero_dividend hb ha s.intDigits.toNat
    rw [hexec, hdiv, memRead_length]
    rfl
  case overflow =>
    rw [hexec, divDigits_operands hok hb ha, if_pos hover]
    rfl
  case quotient =>
    rw [hexec, divDigits_operands hok hb ha, if_neg (Nat.not_le.2 hfits)]
    rfl

end Sys2Proof.Machine
end

section
/-! The radix-conversion commands in numbers: one step multiplies the fraction that its array stands for, and enough
`SHID` steps leave nothing of it (spec/46_radix.md R200, R201). -/

namespace Sys2Proof.Machine

/-! ### Arrays of congruent numbers -/

/-- An array of `n` digits holds its number modulo `R^n`. -/
theorem arrIn_congr {R : Nat} (h0 : 0 < R) (hR : R ≤ 256) {v w n : Nat} (h : v ≡ w [MOD R ^ n]) :
    arrIn R v n = arrIn R w n :=
  eq_arrIn h0 hR (digitsBelow_arrIn h0 hR v n) (arrIn_length ..) ((valIn_arrIn h0 hR v n).trans h)

theorem arrIn_valIn {R : Nat} (h0 : 0 < R) (hR : R ≤ 256) {a : Digits} (ha : DigitsBelow R a) :
    arrIn R (valIn R a) a.length = a :=
  (eq_arrIn h0 hR ha rfl (Nat.mod_eq_of_lt (valIn_lt ha)).symm).symm

/-! ### One step -/

/-- R200 and R201: the step splits `m` times the fraction into its integer part and its fractional part. -/
theorem radixStep_eq_div_mod {R : Nat} (h0 : 0 < R) (hR : R ≤ 256) (m : Nat) (a : Digits) :
    radixStep R m a = (m * valIn R a / R ^ a.length, arrIn R (m * valIn R a % R ^ a.length) a.length) := by
  rw [radixStep_eq h0 hR, arrIn_congr h0 hR (Nat.mod_modEq ..)]

/-- Settles O23: the completion writes the step's array and its carry, with operand `a` read as a decimal array. -/
theorem shibMultipliesFractionBy256 : Obligations.ShibMultipliesFractionBy256 := by
  refine fun s => ⟨fun hok => ?_, exec_badOperand⟩
  rw [execShib_ok hok, radixStep_eq_div_mod (by omega) (by omega), operandA_length]
  rfl

/-- Settles O24: as for `SHIB`, with operand `a` read as a base-256 array. -/
theorem shidMultipliesFractionBy10 : Obligations.ShidMultipliesFractionBy10 := by
  refine fun s => ⟨fun hok => ?_, exec_badOperand⟩
  rw [execShid_ok hok, radixStep_eq_div_mod (by omega) (by omega), operandA_length]
  rfl

/-! ### Repeated steps -/

/-- `k` steps multiply the fraction by `m^k` and drop the integer parts. -/
theorem radixStep_iterate {R : Nat} (h0 : 0 < R) (hR : R ≤ 256) (m k : Nat) {a : Digits} (ha : DigitsBelow R a) :
    (fun d => (radixStep R m d).2)^[k] a = arrIn R (m ^ k * valIn R a) a.length := by
  induction k with
  | zero => rw [Function.iterate_zero_apply, pow_zero, Nat.one_mul, arrIn_valIn h0 hR ha]
  | succ k ih =>
    have hmod : m * (m ^ k * valIn R a % R ^ a.length) ≡ m ^ (k + 1) * valIn R a [MOD R ^ a.length] := by
      rw [pow_succ', Nat.mul_assoc]
      exact (Nat.mod_modEq ..).mul_left m
    rw [Function.iterate_succ_apply', ih, radixStep_eq h0 hR, valIn_arrIn h0 hR, arrIn_length, arrIn_congr h0 hR hmod]

/-- Each factor 10 has a factor 2, and eight of these make up one digit of the denominator `256^n`. -/
theorem pow_256_dvd_ten_pow (n : Nat) : 256 ^ n ∣ 10 ^ (8 * n) := by
  rw [show 256 = 2 ^ 8 from rfl, ← pow_mul]
  exact pow_dvd_pow_of_dvd (by decide) _

/-- Settles O26: `8*n` steps multiply the fraction by a multiple of its denominator, so no fractional part is left. -/
theorem shidDrainsEveryFraction : Obligations.ShidDrainsEveryFraction := by
  intro a
  have hzero : 10 ^ (8 * a.length) * val a ≡ 0 [MOD 256 ^ a.length] :=
    Nat.modEq_zero_iff_dvd.2 ((pow_256_dvd_ten_pow a.length).mul_right _)
  rw [radixStep_iterate (by omega) (by omega) 10 _ (digitsBelow_256 a), zeros_eq_arr]
  exact arrIn_congr (by omega) (by omega) hzero

end Sys2Proof.Machine
end

section
/-! The protocol of spec/70_reset_and_hazards.md R267: every command in flight completes, and a host whose moves keep to
the protocol never stops the machine. The stops that it avoids are the model's (log entries 8 and 9). -/

namespace Sys2Proof.Machine

/-! ### Every command completes -/

/-- Settles O30: whatever a command in flight ends as, its `STATUS` is a packed word. -/
theorem everyCommandCompletes : Obligations.EveryCommandCompletes := by
  intro s
  obtain ⟨t, ht, hends⟩ := runCommand_ends s
  exact ⟨t, ht, hends.busy_eq⟩

/-! ### Moves of a host that keeps to the protocol -/

/-- The moves that come after a completion find the engine idle. -/
theorem runCommand_obeys {s : State} (h : agendaObeys s.par false s.agenda = true) :
    ∃ t, runCommand s = .next t ∧ HostObeys t := by
  obtain ⟨t, ht, hends⟩ := runCommand_ends s
  obtain ⟨hagenda, -⟩ := hends.agenda_reads_eq
  exact ⟨t, ht, by rwa [HostObeys, hends.par_eq, hends.busy_eq, hagenda]⟩

/-- A move that leaves the parameters, `STATUS` and the moves to come alone leaves the host within the protocol. -/
theorem HostObeys.congr {s t : State} (h : HostObeys s) (hpar : t.par = s.par) (hstatus : t.status = s.status)
    (hagenda : t.agenda = s.agenda) : HostObeys t := by
  rwa [HostObeys, busy, hpar, hstatus, hagenda]

theorem hostWrite_obeys {s : State} (h : HostObeys s) (n : Nat) (v : Word) :
    ∃ t, hostWrite n v s = .next t ∧ HostObeys t := by
  cases hbusy : busy s with
  | true => exact ⟨s, hostWrite_busy s hbusy n v, h⟩
  | false =>
    by_cases hn : n = 0
    · subst hn
      rw [hostWrite_cmd s hbusy]
      rw [HostObeys, hbusy] at h
      exact runCommand_obeys h
    · exact ⟨_, hostWrite_idle s hbusy hn v, h.congr (writeReg_par ..) (writeReg_status ..) (writeReg_agenda ..)⟩

/-- The engine's own move ends with the engine idle, whether or not a command was in flight. -/
theorem engineMove_obeys {s : State} (h : agendaObeys s.par false s.agenda = true) :
    ∃ t, engineMove s = .next t ∧ HostObeys t := by
  cases hbusy : busy s with
  | true =>
    rw [engineMove_busy s hbusy]
    exact runCommand_obeys h
  | false => exact ⟨s, engineMove_idle s hbusy, by rwa [HostObeys, hbusy]⟩

/-- A wait that goes on is still to come, and after it, as before, the engine is idle. -/
theorem hostWait_obeys {s : State} (h : agendaObeys s.par false s.agenda = true) (k : Nat) :
    ∃ t, hostWait k s = .next t ∧ HostObeys t := by
  cases hbusy : busy s with
  | false =>
    rw [hostWait_idle hbusy]
    exact ⟨_, rfl, by rw [← hbusy] at h; exact h⟩
  | true =>
    cases k with
    | zero =>
      rw [hostWait, if_pos hbusy]
      exact runCommand_obeys (s := withAgenda s (.wait 0 :: s.agenda)) h
    | succ k =>
      rw [hostWait, if_pos hbusy]
      exact ⟨_, rfl, h⟩

theorem beginCommand_busy (s : State) (h : busy s = true) (w : Word) : beginCommand w s = .next s := if_pos h

theorem beginCommand_obeys {s : State} (h : agendaObeys s.par true s.agenda = true) (v : Word) :
    ∃ t, beginCommand v s = .next t ∧ HostObeys t := by
  cases hbusy : busy s with
  | true => exact ⟨s, beginCommand_busy s hbusy v, by rwa [HostObeys, hbusy]⟩
  | false => exact ⟨_, beginCommand_idle s hbusy v, by rwa [HostObeys, busy_startCmd]⟩

/-- What the protocol asks of a byte access: an idle engine and an address of `DM`. -/
theorem byteAccess_obeys_iff {p : Params} {b : Bool} {a : Nat} {rest : List Move} :
    (!b && decide (a < p.dmSize) && agendaObeys p b rest) = true ↔
      b = false ∧ a < p.dmSize ∧ agendaObeys p b rest = true := by
  simp [and_assoc]

@[simp] theorem busy_applyReset (s : State) : busy (applyReset s) = false := by
  rw [busy, applyReset_status, BitVec.getLsbD_zero]

/-- A move that the protocol allows answers a next state, from which the host's other moves keep to the protocol. -/
theorem doMove_obeys {m : Move} {s : State} (h : agendaObeys s.par (busy s) (m :: s.agenda) = true) :
    ∃ t, doMove m s = .next t ∧ HostObeys t := by
  cases m with
  | wr n v => exact hostWrite_obeys h n v
  | rd n => exact ⟨_, rfl, h⟩
  | st a d =>
    obtain ⟨hidle, ha, hrest⟩ := byteAccess_obeys_iff.1 h
    exact ⟨_, hostStore_idle s hidle ha d, hrest⟩
  | ld a =>
    obtain ⟨hidle, ha, hrest⟩ := byteAccess_obeys_iff.1 h
    exact ⟨_, hostLoad_idle s hidle ha, hrest⟩
  | cmdStart v => exact beginCommand_obeys h v
  | cmdFinish => exact engineMove_obeys h
  | wait k => exact hostWait_obeys h k
  | reset => exact ⟨_, rfl, by rwa [HostObeys, busy_applyReset]⟩

/-- The protocol is an invariant, and while it holds a step answers a next state. -/
theorem step_obeys {s : State} (h : HostObeys s) : ∃ t, step s = .next t ∧ HostObeys t := by
  cases hagenda : s.agenda with
  | nil =>
    rw [step, nextMove, hagenda]
    exact engineMove_obeys (by rw [hagenda]; rfl)
  | cons m rest =>
    rw [step_of_agenda hagenda]
    rw [HostObeys, hagenda] at h
    exact doMove_obeys (s := withAgenda s rest) h

/-- Settles O59, by induction on the number of steps: each of them keeps the host within the protocol. -/
theorem protocolHostNeverStops : Obligations.ProtocolHostNeverStops := by
  intro k
  induction k with
  | zero => exact fun _ _ => trivial
  | succ k ih =>
    intro s h
    obtain ⟨t, ht, hobeys⟩ := step_obeys h
    exact ⟨t, ht, ih t hobeys⟩

/-! ### Moves outside the protocol -/

theorem hostStore_busy (s : State) (h : busy s = true) (a : Nat) (d : Byte) :
    hostStore a d s = .fault .dmAccessInFlight := if_pos h

theorem hostLoad_busy (s : State) (h : busy s = true) (a : Nat) : hostLoad a s = .fault .dmAccessInFlight := if_pos h

theorem hostStore_outside (s : State) (h : busy s = false) {a : Nat} (ha : s.par.dmSize ≤ a) (d : Byte) :
    hostStore a d s = .fault .noSuchDmAddress := by
  simp [hostStore, h, Nat.not_lt.2 ha]

theorem hostLoad_outside (s : State) (h : busy s = false) {a : Nat} (ha : s.par.dmSize ≤ a) :
    hostLoad a s = .fault .noSuchDmAddress := by
  simp [hostLoad, h, Nat.not_lt.2 ha]

/-- Settles O54: the two faults of a byte access, a store's and a load's alike. -/
theorem memoryAccessOutsideProtocolStops : Obligations.MemoryAccessOutsideProtocolStops := by
  rintro s a d rest (hagenda | hagenda) <;> rw [step_of_agenda hagenda]
  · exact ⟨fun hbusy => hostStore_busy (withAgenda s rest) hbusy a d,
      fun hidle ha => hostStore_outside (withAgenda s rest) hidle ha d⟩
  · exact ⟨fun hbusy => hostLoad_busy (withAgenda s rest) hbusy a,
      fun hidle ha => hostLoad_outside (withAgenda s rest) hidle ha⟩

end Sys2Proof.Machine
end

section
/-! The engine at rest, under reset and in flight, as the host sees it (spec/70_reset_and_hazards.md R260, R261, R268). -/

namespace Sys2Proof.Machine

/-! ### Idling and reset -/

/-- Settles O3: with no move to make and no command in flight, the step is the idle engine's move. -/
theorem idleEngineChangesNothing : Obligations.IdleEngineChangesNothing := by
  refine ⟨by decide, fun s hagenda hidle => ?_⟩
  rw [step, nextMove, hagenda]
  exact engineMove_idle s hidle

theorem readReg_applyReset (s : State) (n : Nat) : readReg (applyReset s) n = 0#32 := by
  unfold readReg
  split <;> simp [statusRead]

/-- Settles O4: the reset's next state, register by register; its memory lists no byte. -/
theorem resetInputClearsRegistersAndMemory : Obligations.ResetInputClearsRegistersAndMemory := by
  intro s rest hagenda
  have hstep : step s = .next (applyReset (withAgenda s rest)) := by rw [step_of_agenda hagenda, doMove]
  exact ⟨_, hstep, readReg_applyReset _, rfl, busy_applyReset _, fun _ => rfl, rfl, rfl⟩

/-! ### The registers while a command is in flight -/

/-- Bit 31 is among the bits that a read of `STATUS` shows. -/
theorem statusRead_setBusy (w : Word) : statusRead (setBusy w) = statusRead w ||| 0x80000000#32 := by
  rw [statusRead, setBusy, BitVec.and_or_distrib_right]
  rfl

/-- The registers other than `CMD` and `STATUS` read as before the start of a command. -/
theorem readReg_startCmd (w : Word) (s : State) {n : Nat} (hn : 2 ≤ n) : readReg (startCmd w s) n = readReg s n := by
  by_cases h9 : 9 ≤ n
  · rw [readReg_reserved _ h9, readReg_reserved _ h9]
  · interval_cases n <;> rfl

/-- Settles O51: a command in flight makes the engine ignore writes, and its start changes `CMD` and `BUSY` alone. -/
theorem registersWhileInFlight : Obligations.RegistersWhileInFlight := by
  refine ⟨fun s n v rest hbusy hagenda => ?ignored, fun s w rest hidle hagenda => ?started⟩
  case ignored =>
    rcases hagenda with hagenda | ⟨-, hagenda⟩ <;> rw [step_of_agenda hagenda]
    · exact hostWrite_busy (withAgenda s rest) hbusy n v
    · exact beginCommand_busy (withAgenda s rest) hbusy v
  case started =>
    have hstep : step s = .next (startCmd w (withAgenda s rest)) := by
      rw [step_of_agenda hagenda]
      exact beginCommand_idle (withAgenda s rest) hidle w
    exact ⟨_, hstep, busy_startCmd .., statusErr_startCmd .., statusCO_startCmd .., statusBO_startCmd ..,
      statusRead_setBusy s.status, rfl, fun n => readReg_startCmd w (withAgenda s rest)⟩

end Sys2Proof.Machine
end

section
/-! The end of every division (spec/45_div.md R188, spec/60_exceptions.md R232, spec/70_reset_and_hazards.md R274). -/

namespace Sys2Proof.Machine

/-- Settles O46: a zero divisor and a zero dividend end the algorithm early, and otherwise its closed form is an overflow or
a quotient. -/
theorem divisionAlwaysEnds : Obligations.DivisionAlwaysEnds := by
  intro a b k hl hk
  by_cases hb : val b = 0
  · rw [divDigits_of_zero_divisor hb]
    exact nofun
  by_cases ha : val a = 0
  · rw [divDigits_of_zero_dividend hb ha]
    exact nofun
  rw [divDigits_eq hl hk hb ha]
  split <;> exact nofun

/-- Widened to the double length, a divisor of the dividend's length still has its length and is still not zero. -/
theorem align_widened_halves {a b : Digits} (hl : a.length = b.length) (hb : val b ≠ 0) :
    ∃ (d v : Digits) (h1 h2 : Nat),
      align (widen a (2 * a.length)) (widen b (2 * b.length)) = some (d, v, -(h1 : Int) + h2) ∧
      HalvesUntil (· < val (widen b (2 * b.length))) (widen a (2 * a.length)) d h1 ∧
      HalvesUntil (· ≤ val d) (widen b (2 * b.length)) v h2 := by
  apply align_halves
  · rw [widen_double_length, widen_double_length, hl]
  · rw [val_widen_double]
    exact Nat.mul_ne_zero hb (by positivity)

/-- Settles O22: both the pointer's sign and the outcome are decided by the number of halvings of the dividend. -/
theorem overflowIffQuotientTooLarge : Obligations.OverflowIffQuotientTooLarge := by
  intro a b k hl hk ha hb
  obtain ⟨d, v, h1, h2, halign, H1, H2⟩ := align_widened_halves hl hb
  refine ⟨d, v, _, halign, ?pointer, ?outcome⟩
  case pointer => exact (pointer_neg_iff H1 H2 k).trans (integer_bits_lt_halvings_iff hl H1 k)
  case outcome =>
    rw [divDigits_eq hl hk hb ha]
    split
    case isTrue hover => exact iff_of_true rfl hover
    case isFalse hfits => exact iff_of_false nofun hfits

end Sys2Proof.Machine
end

section
/-! Which operands a command accepts, and the one status that a command word written to an idle engine ends with
(spec/60_exceptions.md R234, R238, R239). -/

namespace Sys2Proof.Machine

/-! ### Operand validation in numbers -/

theorem lenB_eq_bufLenB {i : Instr} (hb : i ≠ .shib) (hd : i ≠ .shid) (s : State) : Spec.lenB i s = bufLenB i s := by
  cases i with
  | shib => exact absurd rfl hb
  | shid => exact absurd rfl hd
  | add | addx | sub | subx | mul | div => rfl

theorem lenR_eq_resultLen (i : Instr) (s : State) : Spec.lenR i s = resultLen i s := by
  cases i <;> rfl

/-- Two buffers that are not empty share a byte exactly when some address lies in both. -/
theorem not_overlap_iff {b1 n1 b2 n2 : Nat} (h1 : 0 < n1) (h2 : 0 < n2) :
    ¬(b1 < b2 + n2 ∧ b2 < b1 + n1) ↔ ∀ x, b1 ≤ x → x < b1 + n1 → ¬(b2 ≤ x ∧ x < b2 + n2) := by
  constructor
  · intro h x _ _
    omega
  · rintro h ⟨h12, h21⟩
    exact h (max b1 b2) (le_max_left ..) (by omega) (by omega)

/-- Item 6 of R238, for buffers that are not empty: no byte of the result is a byte of a source. -/
theorem validDisjoint_iff_forall {i : Instr} {s : State} (ha : 0 < s.aLen.toNat) (hb : 0 < bufLenB i s)
    (hr : 0 < resultLen i s) :
    validDisjoint i s = true ↔ ∀ x, s.rBase.toNat ≤ x → x < s.rBase.toNat + resultLen i s →
      ¬(s.aBase.toNat ≤ x ∧ x < s.aBase.toNat + s.aLen.toNat) ∧
      ¬(s.bBase.toNat ≤ x ∧ x < s.bBase.toNat + bufLenB i s) := by
  rw [validDisjoint_iff, not_overlap_iff hr ha, not_overlap_iff hr hb]
  simp only [forall_and]

/-- Item 7 of R238, by the address of each digit. -/
theorem validDecimal_iff_forall (s : State) :
    validDecimal s = true ↔ ∀ k, k < s.aLen.toNat → (dmByte s (s.aBase.toNat + k)).toNat ≤ 9 := by
  rw [validDecimal_iff, List.forall_mem_iff_getElem]
  simp only [operandA, memRead_length, memRead_getElem]

/-- The table of R238 by item: the commands that each item applies to. -/
theorem operandsOk_iff_items (i : Instr) (s : State) :
    operandsOk i s = true ↔
      validALen s = true ∧ (i = .addx ∨ i = .subx ∨ i = .mul → validBLen s = true) ∧
      (i = .addx ∨ i = .subx → validOrder s = true) ∧ (i = .div → validIntDigits s = true) ∧ validRangeA s = true ∧
      (i ≠ .shib → i ≠ .shid → s.bBase.toNat + bufLenB i s ≤ s.par.dmSize ∧
        s.rBase.toNat + resultLen i s ≤ s.par.dmSize ∧ validDisjoint i s = true) ∧
      (i = .shib → validDecimal s = true) := by
  rw [operandsOk_iff]
  cases i with
  | shib | shid => simp
  | add | addx | sub | subx | mul | div => simp [validRanges_iff, validRangeA_iff, and_assoc]

/-- Items 1 and 2 of R238 leave no buffer of a command empty. -/
theorem buffers_pos {i : Instr} {s : State} (ha : 1 ≤ s.aLen.toNat)
    (hlen : i = .addx ∨ i = .subx ∨ i = .mul → 1 ≤ s.bLen.toNat) (hb : i ≠ .shib) (hd : i ≠ .shid) :
    0 < bufLenB i s ∧ 0 < resultLen i s := by
  cases i with
  | shib => exact absurd rfl hb
  | shid => exact absurd rfl hd
  | addx | subx | mul => exact ⟨hlen (by decide), by simp only [resultLen]; omega⟩
  | add | sub | div => exact ⟨ha, ha⟩

/-- The checks decide the items of R238 in numbers. -/
theorem operandsOk_iff_validOperands (i : Instr) (s : State) : operandsOk i s = true ↔ Spec.validOperands i s := by
  rw [operandsOk_iff_items, Spec.validOperands, validALen_iff, validBLen_iff, validOrder_iff, validIntDigits_iff,
    validRangeA_iff, validDecimal_iff_forall]
  refine and_congr_right fun hA => and_congr_right fun hB => and_congr_right fun _ => and_congr_right fun _ =>
    and_congr_right fun _ => and_congr_left fun _ => forall_congr' fun hb => forall_congr' fun hd => ?_
  obtain ⟨hposB, hposR⟩ := buffers_pos hA.1 (fun hi => (hB hi).1) hb hd
  rw [lenB_eq_bufLenB hb hd, lenR_eq_resultLen, validDisjoint_iff_forall hA.1 hposB hposR]

/-- Settles O12: the items decide whether the command completes or raises `BAD_OPERAND`. -/
theorem validationItemsPerCommand : Obligations.ValidationItemsPerCommand := by
  refine fun i s => ⟨(operandsOk_iff_validOperands i s).2, fun hbad => exec_badOperand ?_⟩
  exact Bool.eq_false_iff.2 (mt (operandsOk_iff_validOperands i s).1 hbad)

/-! ### Illegal words -/

/-- A word that no command encodes to is rejected by the decoder. -/
theorem decode_error_of_ne_encode {w : Word} (h : ∀ i, w ≠ encode i) : ∃ e, decode w = .error e := by
  cases hd : decode w with
  | error e => exact ⟨e, rfl⟩
  | ok i => exact absurd ((decode_eq_ok_iff w i).1 hd) (h i)

/-- Settles O9: the step is the start of the command and then the raise of `ILLEGAL_CMD`. -/
theorem illegalWordTouchesNothing : Obligations.IllegalWordTouchesNothing := by
  intro s w rest hw hillegal
  obtain ⟨e, hd⟩ := decode_error_of_ne_encode hillegal
  exact step_writesCmd_illegal hw hd

/-! ### The status reported -/

theorem commandResult_err_of_refused {i : Instr} {s : State} (hbad : operandsOk i s = false) :
    (commandResult i s).err = .badOperand := by
  simp [commandResult, hbad, refusedResult]

/-- Only `DIV` fails on valid operands. -/
theorem commandResult_err_of_ne_div {i : Instr} {s : State} (hok : operandsOk i s = true) (hi : i ≠ .div) :
    (commandResult i s).err = .ok := by
  rw [commandResult, if_pos hok, resultOf_err_ok hi]

/-- R239 for `DIV` on valid operands: the order of the statuses is that of the algorithm's tests. -/
theorem commandResult_div_errCode {s : State} (hok : operandsOk .div s = true) :
    errCode (commandResult .div s).err =
      if Spec.valB s s.aLen.toNat = 0 then 1
      else if Spec.valA s = 0 then 0
      else if 256 ^ s.aLen.toNat ≤ Spec.quotient s then 2
      else 0 := by
  rw [commandResult, if_pos hok, resultOf]
  by_cases hb : val (operandB .div s) = 0
  · rw [divDigits_of_zero_divisor hb]
    exact (if_pos hb).symm
  by_cases ha : val (operandA s) = 0
  · rw [divDigits_of_zero_dividend hb ha]
    exact ((if_neg hb).trans (if_pos ha)).symm
  rw [divDigits_operands hok hb ha, if_neg (show Spec.valB s s.aLen.toNat ≠ 0 from hb),
    if_neg (show Spec.valA s ≠ 0 from ha)]
  split <;> rfl

/-- The status of a legal word's step is that of its command's result in the state before the step. -/
theorem step_writesCmd_statusErr {s : State} {w : Word} {rest : List Move} (hw : Spec.writesCmd s w rest) {i : Instr}
    (hd : decode w = .ok i) : ∃ t, step s = .next t ∧ statusErr t = errCode (commandResult i s).err :=
  ⟨_, step_writesCmd_legal hw hd (exec_eq_writeTo i s),
    statusErr_writeTo (commandResult i s) (resultBase i s) (resultLen i s) s⟩

/-- Settles O13: the decoder's test comes first, then validation, then the tests of the division. -/
theorem firstApplicableStatusIsReported : Obligations.FirstApplicableStatusIsReported := by
  intro s w rest hw
  cases hd : decode w with
  | error e =>
    refine ⟨_, step_writesCmd_illegal hw hd, fun _ => packStatus_err .illegalCmd false false, fun i hi => ?_⟩
    rw [hi, decode_encode] at hd
    contradiction
  | ok i =>
    obtain ⟨t, hstep, herr⟩ := step_writesCmd_statusErr hw hd
    refine ⟨t, hstep, fun hillegal => absurd ((decode_eq_ok_iff w i).1 hd) (hillegal i), fun j hj => ?_⟩
    obtain rfl : i = j := by
      rw [hj, decode_encode] at hd
      exact (Except.ok.inj hd).symm
    rw [herr]
    refine ⟨fun hbad => ?refused, fun hok hi => ?completed, fun hok hi => ?division⟩
    case refused => rw [commandResult_err_of_refused hbad, errCode]
    case completed => rw [commandResult_err_of_ne_div hok hi, errCode]
    case division =>
      subst hi
      exact commandResult_div_errCode hok

end Sys2Proof.Machine
end

section
/-! A command's outcome as a function of the descriptors and of the source buffers, apart from the draws
(spec/70_reset_and_hazards.md R276). -/

namespace Sys2Proof.Machine

/-! ### The digits written fill the result buffer -/

theorem subResult_digits_length {a b r : Digits} (hl : b.length ≤ a.length)
    (h : (subResult (subArrays a b)).written = .digits r) : r.length = a.length := by
  rw [subArrays_eq hl] at h
  split at h <;> cases h
  exact arrIn_length ..

theorem divResult_digits_length {a b r : Digits} {k : Nat}
    (h : (divResult a.length (divDigits a b k)).written = .digits r) : r.length = a.length := by
  cases hdiv : divDigits a b k with
  | byZero | unspecified =>
    rw [hdiv] at h
    cases h
  | overflow =>
    rw [hdiv] at h
    cases h
    exact zeros_length ..
  | quotient q =>
    rw [hdiv] at h
    cases h
    exact divDigits_length hdiv

/-- The digits that a command computes from valid operands are as many as its result buffer holds. -/
theorem commandResult_digits_length {i : Instr} {s : State} {r : Digits} (hok : operandsOk i s = true)
    (h : (commandResult i s).written = .digits r) : r.length = resultLen i s := by
  rw [commandResult, if_pos hok] at h
  cases i with
  | add =>
    cases h
    rw [addDigits_length (by simp [bufLenB]), operandA_length, resultLen]
  | addx =>
    cases h
    have hle := operandsOk_order hok (.inl rfl)
    have hpad : (padTo (operandA s).length (operandB .addx s)).length = (operandA s).length :=
      padTo_length (by simpa [bufLenB] using hle)
    rw [List.length_cons, addDigits_length hpad.symm, operandA_length, resultLen]
  | sub | subx =>
    rw [subResult_digits_length (operandB_length_le (by decide) hok) h, operandA_length, resultLen]
  | mul =>
    cases h
    rw [mulDigits_length, operandA_length, operandB_length, bufLenB, resultLen]
  | div => rw [divResult_digits_length h, operandA_length, resultLen]
  | shib | shid =>
    cases h
    rw [radixStep_length, operandA_length, resultLen]

/-! ### Equal descriptors and sources -/

theorem bufLenB_congr (i : Instr) {s s' : State} (haLen : s.aLen = s'.aLen) (hbLen : s.bLen = s'.bLen) :
    bufLenB i s = bufLenB i s' := by
  cases i <;> simp only [bufLenB, haLen, hbLen]

/-- An array read is determined by the bytes at the offsets of its digits. -/
theorem memRead_congr_offset {s s' : State} {a n : Nat} (h : ∀ k, k < n → dmByte s (a + k) = dmByte s' (a + k)) :
    memRead s a n = memRead s' a n :=
  memRead_congr fun x hlow hhigh => by simpa [Nat.add_sub_of_le hlow] using h (x - a) (by omega)

/-- Two states agree on the parameters, on the descriptors and on the operands that a command reads through them. -/
structure SameSources (i : Instr) (s s' : State) : Prop where
  par : s.par = s'.par
  aBase : s.aBase = s'.aBase
  aLen : s.aLen = s'.aLen
  bBase : s.bBase = s'.bBase
  bLen : s.bLen = s'.bLen
  rBase : s.rBase = s'.rBase
  intDigits : s.intDigits = s'.intDigits
  operandA : operandA s = operandA s'
  operandB : operandB i s = operandB i s'

namespace SameSources

variable {i : Instr} {s s' : State}

theorem resultLen_eq (h : SameSources i s s') : resultLen i s = resultLen i s' := by
  cases i <;> simp only [resultLen, h.aLen, h.bLen]

theorem resultBase_eq (h : SameSources i s s') : resultBase i s = resultBase i s' := by
  cases i <;> simp only [resultBase, h.aBase, h.rBase]

/-- Every item of R238 tests descriptors, and the last one the digits of operand `a` too. -/
theorem operandsOk_eq (h : SameSources i s s') : operandsOk i s = operandsOk i s' := by
  have hlenB := bufLenB_congr i h.aLen h.bLen
  have hranges : validRanges i s = validRanges i s' := by
    simp only [validRanges, h.par, h.aBase, h.aLen, h.bBase, h.rBase, hlenB, h.resultLen_eq]
  have hdisjoint : validDisjoint i s = validDisjoint i s' := by
    simp only [validDisjoint, h.aBase, h.aLen, h.bBase, h.rBase, hlenB, h.resultLen_eq]
  have hdecimal : validDecimal s = validDecimal s' := by rw [validDecimal, validDecimal, h.operandA]
  cases i <;>
    simp only [operandsOk, validALen, validBLen, validOrder, validIntDigits, validRangeA, h.par, h.aBase, h.aLen, h.bLen,
      h.intDigits, hranges, hdisjoint, hdecimal]

theorem commandResult_eq (h : SameSources i s s') : commandResult i s = commandResult i s' := by
  rw [commandResult, commandResult, h.operandsOk_eq, h.operandA, h.operandB, h.intDigits]

end SameSources

/-! ### The bytes of the result buffer -/

/-- A write that is not left out puts the same digits over any two memories, when the next draw is the same. -/
theorem Written.exists_memory_eq {w : Written} {n : Nat} {s s' : State} (hw : w ≠ .nothing)
    (hlen : ∀ r, w = .digits r → r.length = n) (hdraw : s.drawNext = s'.drawNext) (base : Nat) :
    ∃ r : Digits, r.length = n ∧ w.memory base n s = memWrite s.dm base r ∧
      w.memory base n s' = memWrite s'.dm base r := by
  cases w with
  | nothing => exact absurd rfl hw
  | digits r => exact ⟨r, hlen r rfl, rfl, rfl⟩
  | draw =>
    have hdigits : drawDigits s' n = drawDigits s n := by rw [drawDigits, drawDigits, hdraw]
    exact ⟨drawDigits s n, drawDigits_length s n, rfl, by rw [Written.memory, hdigits]⟩

/-- A refusal of the operands is the only result that writes nothing. -/
theorem resultOf_written_ne_nothing (i : Instr) (a b : Digits) (k : Nat) :
    (resultOf i a b k).written ≠ .nothing := by
  cases i with
  | add | addx | mul | shib | shid => exact nofun
  | sub | subx =>
    rw [resultOf]
    cases subArrays a b <;> exact nofun
  | div =>
    rw [resultOf]
    cases divDigits a b k <;> exact nofun

/-- Settles O32: both commands write the same result, with the same draw if it is one, over the same buffer. -/
theorem outcomeIsAFunctionOfDescriptorsAndSources : Obligations.OutcomeIsAFunctionOfDescriptorsAndSources := by
  intro i s s' t t' hpar haBase haLen hbBase hbLen hrBase hint hdraw ha hb ht ht'
  have hlenB := bufLenB_congr i haLen hbLen
  have hopA : operandA s = operandA s' := by rw [operandA, operandA, memRead_congr_offset ha, haBase, haLen]
  have hopB : operandB i s = operandB i s' := by rw [operandB, operandB, memRead_congr_offset hb, hbBase, hlenB]
  have hsame : SameSources i s s' := ⟨hpar, haBase, haLen, hbBase, hbLen, hrBase, hint, hopA, hopB⟩
  cases (exec_eq_writeTo i s).symm.trans ht
  cases (exec_eq_writeTo i s').symm.trans ht'
  rw [← hsame.commandResult_eq, ← hsame.resultBase_eq, ← hsame.resultLen_eq]
  refine ⟨rfl, rfl, fun hok k hk => ?_⟩
  have hwrites : (commandResult i s).written ≠ .nothing := by
    rw [commandResult, if_pos hok]
    exact resultOf_written_ne_nothing i _ _ _
  obtain ⟨r, hr, hdm, hdm'⟩ := Written.exists_memory_eq hwrites (fun r => commandResult_digits_length hok) hdraw
    (resultBase i s)
  rw [dmByte_of_memWrite hdm (by omega), dmByte_of_memWrite hdm' (by omega)]

end Sys2Proof.Machine
end
